-- ==== Sys2Proof/Word.lean ====
section
/-! DEFINITION. The words of the MAX7219 chain controller block: bytes, the 32-bit host command word
(30_encoding R70), the 16-bit group (30_encoding R87), and arrays of a fixed length given by a rule. -/

namespace Sys2Proof

/-- A row byte, a register value, or one byte of a frame. -/
abbrev Byte := BitVec 8

/-- A host command word, or a result word (30_encoding R70, R85). -/
abbrev Word := BitVec 32

/-- A group as the module's 16-bit serial word: `D15..D8` the address byte, `D7..D0` the value byte
(20_memory R54, 30_encoding R87). -/
abbrev GroupWord := BitVec 16

/-- The `n` values `f 0, …, f (n-1)`. -/
def tabulate {α : Type} (n : Nat) (f : Nat → α) : Vector α n :=
  ⟨((List.range n).map f).toArray, by simp⟩

@[simp] theorem tabulate_getElem {α : Type} (n : Nat) (f : Nat → α) (i : Nat) (h : i < n) :
    (tabulate n f)[i] = f i := by simp [tabulate]

@[simp] theorem tabulate_getElem? {α : Type} (n : Nat) (f : Nat → α) (i : Nat) (h : i < n) :
    (tabulate n f)[i]? = some (f i) := by simp [h]

end Sys2Proof
end

