-- ==== Sys2Proof/Syntax.lean ====
section
/-! DEFINITION. The instructions: one constructor for each row of spec/opcode_table.json. The first thirteen
are the host commands of 30_encoding R80; the sixteen `max7219…` are the groups a module of the chain takes
(40_protocol R105, 30_encoding R87).

An operand that the spec uses as an index or a count is a `Nat` (00_scope R10: "on naturals"); WellFormed.lean
bounds it by its field. An operand that is a code, a register address or a register value is a bit vector. -/

namespace Sys2Proof

/-- The instructions of spec/opcode_table.json, operands in the order of 30_encoding R88. -/
inductive Instr where
  /-- CFG_COUNT, format B (41_config_init R140). -/
  | cfgCount (n : Nat)
  /-- CFG_MODULE, format M (41_config_init R142). -/
  | cfgModule (m p : Nat) (o : BitVec 4)
  /-- INIT, format Z (41_config_init R146). -/
  | init
  /-- SEND_ONE, format S (40_protocol R110). -/
  | sendOne (p : Nat) (a : BitVec 4) (v : Byte)
  /-- BATCH_PUT, format S (40_protocol R115). -/
  | batchPut (p : Nat) (a : BitVec 4) (v : Byte)
  /-- BATCH_SEND, format Z (40_protocol R121). -/
  | batchSend
  /-- SET_INTENSITY, format B (40_protocol R125). -/
  | setIntensity (v : Nat)
  /-- SET_TEST_MODE, format T (40_protocol R130). -/
  | setTestMode (b : Bool)
  /-- SET_PIXEL, format P (42_layout_framebuffer R176). -/
  | setPixel (m r c : Nat) (on : Bool)
  /-- GET_PIXEL, format P (42_layout_framebuffer R177). -/
  | getPixel (m r c : Nat)
  /-- CLEAR, format Z (42_layout_framebuffer R178). -/
  | clear
  /-- FLUSH, format Z (42_layout_framebuffer R179). -/
  | flush
  /-- MAP, format P (42_layout_framebuffer R174). -/
  | map (m r c : Nat)
  /-- MAX7219_NOOP, register address 0x0. -/
  | max7219Noop (v : Byte)
  /-- MAX7219_DIGIT0, register address 0x1. -/
  | max7219Digit0 (v : Byte)
  /-- MAX7219_DIGIT1, register address 0x2. -/
  | max7219Digit1 (v : Byte)
  /-- MAX7219_DIGIT2, register address 0x3. -/
  | max7219Digit2 (v : Byte)
  /-- MAX7219_DIGIT3, register address 0x4. -/
  | max7219Digit3 (v : Byte)
  /-- MAX7219_DIGIT4, register address 0x5. -/
  | max7219Digit4 (v : Byte)
  /-- MAX7219_DIGIT5, register address 0x6. -/
  | max7219Digit5 (v : Byte)
  /-- MAX7219_DIGIT6, register address 0x7. -/
  | max7219Digit6 (v : Byte)
  /-- MAX7219_DIGIT7, register address 0x8. -/
  | max7219Digit7 (v : Byte)
  /-- MAX7219_DECODE_MODE, register address 0x9. -/
  | max7219DecodeMode (v : Byte)
  /-- MAX7219_INTENSITY, register address 0xA. -/
  | max7219Intensity (v : Byte)
  /-- MAX7219_SCAN_LIMIT, register address 0xB. -/
  | max7219ScanLimit (v : Byte)
  /-- MAX7219_SHUTDOWN, register address 0xC. -/
  | max7219Shutdown (v : Byte)
  /-- MAX7219_ADDR_D, register address 0xD, whose effect on the chip is unknown (U3). -/
  | max7219AddrD (v : Byte)
  /-- MAX7219_ADDR_E, register address 0xE, whose effect on the chip is unknown (U3). -/
  | max7219AddrE (v : Byte)
  /-- MAX7219_DISPLAY_TEST, register address 0xF. -/
  | max7219DisplayTest (v : Byte)
  deriving DecidableEq, Repr

end Sys2Proof
end

