-- ==== Sys2Proof/WellFormed.lean ====
section
/-! DEFINITION. Well-formed instructions: every operand fits its field. 30_encoding R88: "An operand wider
than its field is an assembly error." The range checks of a command's own rule (a position below `N`, a row
below 8, an intensity of at most 15) are no part of this: such a word decodes and the command answers
OUT_OF_RANGE (30_encoding R79). -/

namespace Sys2Proof

/-- `x` fits a field of `bits` bits. -/
def fits (bits x : Nat) : Bool := decide (x < 2 ^ bits)

/-- Every operand fits its field (30_encoding R72 to R76, R88). The operands that are bit vectors or a `Bool`
fit by their type. -/
def Instr.wellFormed : Instr → Bool
  | .cfgCount n => fits 8 n
  | .cfgModule m p _ => fits 8 m && fits 8 p
  | .init => true
  | .sendOne p _ _ => fits 8 p
  | .batchPut p _ _ => fits 8 p
  | .batchSend => true
  | .setIntensity v => fits 8 v
  | .setTestMode _ => true
  | .setPixel m r c _ => fits 8 m && fits 8 r && fits 8 c
  | .getPixel m r c => fits 8 m && fits 8 r && fits 8 c
  | .clear => true
  | .flush => true
  | .map m r c => fits 8 m && fits 8 r && fits 8 c
  | .max7219Noop _ => true
  | .max7219Digit0 _ => true
  | .max7219Digit1 _ => true
  | .max7219Digit2 _ => true
  | .max7219Digit3 _ => true
  | .max7219Digit4 _ => true
  | .max7219Digit5 _ => true
  | .max7219Digit6 _ => true
  | .max7219Digit7 _ => true
  | .max7219DecodeMode _ => true
  | .max7219Intensity _ => true
  | .max7219ScanLimit _ => true
  | .max7219Shutdown _ => true
  | .max7219AddrD _ => true
  | .max7219AddrE _ => true
  | .max7219DisplayTest _ => true

end Sys2Proof
end

