-- ==== Sys2Proof/Decode.lean ====
section
/-! DEFINITION. Decoding and encoding. A host command word is decoded by the mask and match of 30_encoding R80
(R81), a 16-bit group by its address nibble (40_protocol R105, 30_encoding R87). The encoder is written from the
concatenations of 30_encoding R88 and from R87. -/

namespace Sys2Proof

/-- The words of an instruction: one 32-bit host command word, or one 16-bit group. -/
inductive Code where
  | command (w : Word)
  | group (w : GroupWord)
  deriving DecidableEq, Repr

/-- Why a host command word is illegal (30_encoding R84). -/
inductive Reject where
  /-- `w[31:28]` is 0x0, 0xE or 0xF. -/
  | reservedOpcode (op : BitVec 4)
  /-- The opcode is a command's and a reserved bit of its format is 1. -/
  | reservedBits (op : BitVec 4)
  deriving DecidableEq, Repr

/-- A row of the opcode map of 30_encoding R80, with the operands its format reads (R71 to R76). -/
structure CommandRow where
  pattern : Word
  mask : Word
  read : Word → Instr

/-! ### Field extraction (30_encoding R79: every field is zero-extended) -/

/-- `w[27:24]`: the register address of format S. -/
def fieldA (w : Word) : BitVec 4 := w.extractLsb' 24 4

/-- `w[24]`: `on` of format P. -/
def fieldOn (w : Word) : Bool := w.getLsbD 24

/-- `w[23:16]`: `m` of formats M and P, `p` of format S. -/
def fieldHi (w : Word) : Nat := (w.extractLsb' 16 8).toNat

/-- `w[15:8]`: `p` of format M, `r` of format P. -/
def fieldMid (w : Word) : Nat := (w.extractLsb' 8 8).toNat

/-- `w[7:0]`: `imm8` of format B, `c` of format P. -/
def fieldLo (w : Word) : Nat := (w.extractLsb' 0 8).toNat

/-- `w[7:0]`: the register value of format S. -/
def fieldV (w : Word) : Byte := w.extractLsb' 0 8

/-- `w[3:0]`: the orientation code of format M. -/
def fieldO (w : Word) : BitVec 4 := w.extractLsb' 0 4

/-- `w[0]`: `b` of format T. -/
def fieldB (w : Word) : Bool := w.getLsbD 0

/-- `w[31:28]`: the opcode. -/
def fieldOp (w : Word) : BitVec 4 := w.extractLsb' 28 4

/-- The opcode map (30_encoding R80), rows in its order. -/
def commandRows : List CommandRow :=
  [ ⟨0x10000000, 0xFFFFFF00, fun w => .cfgCount (fieldLo w)⟩,
    ⟨0x20000000, 0xFF0000F0, fun w => .cfgModule (fieldHi w) (fieldMid w) (fieldO w)⟩,
    ⟨0x30000000, 0xFFFFFFFF, fun _ => .init⟩,
    ⟨0x40000000, 0xF000FF00, fun w => .sendOne (fieldHi w) (fieldA w) (fieldV w)⟩,
    ⟨0x50000000, 0xF000FF00, fun w => .batchPut (fieldHi w) (fieldA w) (fieldV w)⟩,
    ⟨0x60000000, 0xFFFFFFFF, fun _ => .batchSend⟩,
    ⟨0x70000000, 0xFFFFFF00, fun w => .setIntensity (fieldLo w)⟩,
    ⟨0x80000000, 0xFFFFFFFE, fun w => .setTestMode (fieldB w)⟩,
    ⟨0x90000000, 0xFE000000, fun w => .setPixel (fieldHi w) (fieldMid w) (fieldLo w) (fieldOn w)⟩,
    ⟨0xA0000000, 0xFF000000, fun w => .getPixel (fieldHi w) (fieldMid w) (fieldLo w)⟩,
    ⟨0xB0000000, 0xFFFFFFFF, fun _ => .clear⟩,
    ⟨0xC0000000, 0xFFFFFFFF, fun _ => .flush⟩,
    ⟨0xD0000000, 0xFF000000, fun w => .map (fieldHi w) (fieldMid w) (fieldLo w)⟩ ]

/-- `w` is a word of the row (30_encoding R80). -/
def CommandRow.selects (w : Word) (r : CommandRow) : Bool := w &&& r.mask == r.pattern

/-- Why a word that no row selects is illegal (30_encoding R84). -/
def rejection (w : Word) : Reject :=
  if fieldOp w = 0x0 ∨ fieldOp w = 0xE ∨ fieldOp w = 0xF then .reservedOpcode (fieldOp w)
  else .reservedBits (fieldOp w)

/-- `Decode(w)` (30_encoding R81), total on every 32-bit word. -/
def decodeCommand (w : Word) : Except Reject Instr :=
  match commandRows.find? (CommandRow.selects w) with
  | some r => .ok (r.read w)
  | none => .error (rejection w)

/-- The instruction a module carries out for a group with address nibble `a` and value byte `v`
(40_protocol R105, 30_encoding R87). -/
def groupInstr (a : BitVec 4) (v : Byte) : Instr :=
  match a.toNat with
  | 0 => .max7219Noop v
  | 1 => .max7219Digit0 v
  | 2 => .max7219Digit1 v
  | 3 => .max7219Digit2 v
  | 4 => .max7219Digit3 v
  | 5 => .max7219Digit4 v
  | 6 => .max7219Digit5 v
  | 7 => .max7219Digit6 v
  | 8 => .max7219Digit7 v
  | 9 => .max7219DecodeMode v
  | 10 => .max7219Intensity v
  | 11 => .max7219ScanLimit v
  | 12 => .max7219Shutdown v
  | 13 => .max7219AddrD v
  | 14 => .max7219AddrE v
  | _ => .max7219DisplayTest v

/-- The instruction of a 16-bit group: total, since every register address has a row. "`A[7:4]` is ignored"
(40_protocol R105; log 15). -/
def decodeGroup (w : GroupWord) : Instr := groupInstr (w.extractLsb' 8 4) (w.extractLsb' 0 8)

/-- Decoding of either kind of word. -/
def decode : Code → Except Reject Instr
  | .command w => decodeCommand w
  | .group w => .ok (decodeGroup w)

/-! ### The encoder -/

/-- An 8-bit field that holds `x`. -/
def byteField (x : Nat) : BitVec 8 := BitVec.ofNat 8 x

/-- Format Z: no operand (30_encoding R71). -/
def wordZ (op : BitVec 4) : Word := op ++ 0#28

/-- Format B (30_encoding R72). -/
def wordB (op : BitVec 4) (x : Nat) : Word := op ++ 0#20 ++ byteField x

/-- Format T (30_encoding R73). -/
def wordT (op : BitVec 4) (b : Bool) : Word := op ++ 0#27 ++ BitVec.ofBool b

/-- Format M (30_encoding R74). -/
def wordM (op : BitVec 4) (m p : Nat) (o : BitVec 4) : Word :=
  op ++ 0#4 ++ byteField m ++ byteField p ++ 0#4 ++ o

/-- Format S (30_encoding R75). -/
def wordS (op : BitVec 4) (p : Nat) (a : BitVec 4) (v : Byte) : Word :=
  op ++ a ++ byteField p ++ 0#8 ++ v

/-- Format P (30_encoding R76). -/
def wordP (op : BitVec 4) (on : Bool) (m r c : Nat) : Word :=
  op ++ 0#3 ++ BitVec.ofBool on ++ byteField m ++ byteField r ++ byteField c

/-- A group: address byte `zext_8(a)`, then the value byte (30_encoding R87). -/
def wordG (a : BitVec 4) (v : Byte) : GroupWord := 0#4 ++ a ++ v

/-- The words of an instruction (30_encoding R87, R88). -/
def encode : Instr → Code
  | .cfgCount n => .command (wordB 0x1 n)
  | .cfgModule m p o => .command (wordM 0x2 m p o)
  | .init => .command (wordZ 0x3)
  | .sendOne p a v => .command (wordS 0x4 p a v)
  | .batchPut p a v => .command (wordS 0x5 p a v)
  | .batchSend => .command (wordZ 0x6)
  | .setIntensity v => .command (wordB 0x7 v)
  | .setTestMode b => .command (wordT 0x8 b)
  | .setPixel m r c on => .command (wordP 0x9 on m r c)
  | .getPixel m r c => .command (wordP 0xA false m r c)
  | .clear => .command (wordZ 0xB)
  | .flush => .command (wordZ 0xC)
  | .map m r c => .command (wordP 0xD false m r c)
  | .max7219Noop v => .group (wordG 0x0 v)
  | .max7219Digit0 v => .group (wordG 0x1 v)
  | .max7219Digit1 v => .group (wordG 0x2 v)
  | .max7219Digit2 v => .group (wordG 0x3 v)
  | .max7219Digit3 v => .group (wordG 0x4 v)
  | .max7219Digit4 v => .group (wordG 0x5 v)
  | .max7219Digit5 v => .group (wordG 0x6 v)
  | .max7219Digit6 v => .group (wordG 0x7 v)
  | .max7219Digit7 v => .group (wordG 0x8 v)
  | .max7219DecodeMode v => .group (wordG 0x9 v)
  | .max7219Intensity v => .group (wordG 0xA v)
  | .max7219ScanLimit v => .group (wordG 0xB v)
  | .max7219Shutdown v => .group (wordG 0xC v)
  | .max7219AddrD v => .group (wordG 0xD v)
  | .max7219AddrE v => .group (wordG 0xE v)
  | .max7219DisplayTest v => .group (wordG 0xF v)

/-! ### The opcode table's numbering -/

/-- The words whose bits are `w`, of a row that spec/opcode_table.json gives `nbits` bits: 32 for a host command,
16 for a group. A command word is one unit and has no byte order (30_encoding R70); a group is read as the
16-bit serial word, address byte high (R87). -/
def codeOfTable (nbits w : Nat) : Option Code :=
  if nbits = 32 ∧ w < 2 ^ 32 then some (.command (BitVec.ofNat 32 w))
  else if nbits = 16 ∧ w < 2 ^ 16 then some (.group (BitVec.ofNat 16 w))
  else none

/-- The instruction the decoder reads from an instruction whose bits are `w`, numbered as the table numbers
them. -/
def decodeTableWord (nbits w : Nat) : Option Instr :=
  match codeOfTable nbits w with
  | some c => (decode c).toOption
  | none => none

end Sys2Proof
end

