-- ==== Sys2Proof/Config.lean ====
section
/-! DEFINITION. What the spec fixes for the block as a parameter (00_scope R6, 10_state R35), and the values
it leaves open (93_implementation_defined, part 1): an open value is an opaque constant, so that no proof
can see what it is. -/

namespace Sys2Proof

/-- The transport's answer to one `Transmit` (40_protocol R100). -/
inductive Answer where
  | ok
  | err
  deriving DecidableEq, Repr, Inhabited

namespace Config

/-- `N_MAX` (R6, D7). -/
def nMax : Nat := 255

/-- `BATCH_MAX` (R6, D19). -/
def batchMax : Nat := 256

/-- `NOOP_ADDR` (R6, D5). -/
def noopAddr : BitVec 4 := 0x0

/-- `NOOP_VALUE` (R6, D5). -/
def noopValue : Byte := 0x00

/-- `INIT_INTENSITY`: an `OPEN` parameter of 4 bits (R6, D15, U7). UNVERIFIED value, safe (log 2). -/
opaque initIntensity : BitVec 4

/-- The answer of the transport to the `k`-th `Transmit`, where the environment has not supplied one
(R100, D30, U1). Free value, safe (log 1). -/
opaque transportAnswer : Nat → Answer

/-- What register `a` of the module at position `p` holds when the chain is powered up
(40_protocol R106, 70_reset R252, U4). Free value, safe (log 4). -/
opaque chainPowerUp : Nat → Nat → Byte

/-- What register `a` of the module at position `p` holds after draw `d` of unknown chain contents: a
transaction answered `Err` (R104, U2), a write to register 0xD or 0xE (R105, U3), or a position beyond the chain
(log 11). Arguments `d p a`. Free value, safe (log 5, log 6, log 11). -/
opaque chainUnknown : Nat → Nat → Nat → Byte

/-- Whether the LED at physical `(pr, pc)` of module `p` is lit at time `t` while the module's decode mode
is not 0x00 (40_protocol R106, U5). Arguments `t p pr pc`. Free value, safe (log 16). -/
opaque ledUnknown : Nat → Nat → Nat → Nat → Bool

end Config

end Sys2Proof
end

