-- ==== Sys2Proof/Machine/State.lean ====
section
/-! DEFINITION. The state of the block (10_state R33), beside it what the spec names outside the block (the bus
log and the chain's registers, 10_state R36; the host index, 10_state R20) and the inputs of the environment
(the host port and the transport port, 92 D1), all plain data. -/

namespace Sys2Proof.Machine

/-- `MODE` (10_state R21). -/
inductive Mode where
  | unconfigured
  | configured
  deriving DecidableEq, Repr

/-- A group: a register address and a value (00_scope R9, 40_protocol R101). -/
structure Group where
  addr : BitVec 4
  value : Byte
  deriving DecidableEq, Repr

/-- A Register Command, "(physical module index, register address, 8-bit value)": one entry of `BATCH`
(10_state R32). -/
structure RegisterCommand where
  p : Byte
  a : BitVec 4
  v : Byte
  deriving DecidableEq, Repr

/-- One entry of the bus log: the frame given to `Transmit` and its answer (10_state R36). -/
structure Transaction where
  frame : List Byte
  answer : Answer
  deriving DecidableEq, Repr

/-- What the environment gives the machine next. -/
inductive Input where
  /-- A command word at the host command port (92 D1, 30_encoding R70). -/
  | command (w : Word)
  /-- One module, at physical position `p`, takes the group `w` (40_protocol R105; log 7). -/
  | group (p : Fin 256) (w : GroupWord)
  /-- A reset of the block, between commands (70_reset R253; log 10). -/
  | reset
  deriving DecidableEq, Repr

/-- The 16 registers of one module (20_memory R53). -/
abbrev ModuleRegs := Vector Byte 16

/-- A byte memory in canonical form: addresses strictly rising, no entry that holds what an unlisted address
reads as. Machine/Memory.lean holds its operations. -/
abbrev Memory := List Host.Cell

/-- The state. The first ten fields are the block's own (10_state R33). -/
structure State where
  /-- `MODE` (R21). -/
  mode : Mode
  /-- `RESULT` (R22). -/
  result : Word
  /-- `STG_N` (R24). -/
  stgN : Byte
  /-- `STG_ORDER` (R25). -/
  stgOrder : Vector Byte 256
  /-- `STG_ORIENT` (R26). -/
  stgOrient : Vector (BitVec 4) 256
  /-- `N` (R27). -/
  N : Byte
  /-- `ORDER` (R28). -/
  order : Vector Byte 256
  /-- `ORIENT` (R29). -/
  orient : Vector (BitVec 4) 256
  /-- `FB`, by row address `8·p + pr` (R30, R51; log 13). -/
  fb : Memory
  /-- `BATCH` (R32). -/
  batch : List RegisterCommand
  /-- The bus log, oldest transaction first (R36). Outside the block. -/
  busLog : List Transaction
  /-- `REG[p][a]`, the registers of the modules (R36, R104, R105). Outside the block. -/
  chain : Vector ModuleRegs 256
  /-- `hpc`, the number of command words issued (R20, D31). The host's. -/
  hpc : Nat
  /-- What the environment gives the machine next, first first (log 8). The environment's. -/
  pending : List Input
  /-- The transport's coming answers, first first (R100, U1; log 1). The environment's. -/
  answers : List Answer
  /-- The position of the module that takes the group of a `MAX7219_*` row (log 7). The model's own. -/
  groupPos : Fin 256
  /-- How many draws of unknown chain contents have been passed (log 5). The model's own. -/
  draws : Nat
  deriving DecidableEq, Repr

/-- The machine's faults. -/
inductive Fault where
  /-- A Frame Buffer access to a row address at or above `8·N`, which does not exist (20_memory R51). Raised by
  SET_PIXEL and GET_PIXEL, only where `ORDER` is no permutation, which no run reaches. Safe (log 12). -/
  | rowAddress (a : Nat)
  deriving DecidableEq, Repr

/-- The machine's refusals. -/
inductive Refusal where
  /-- No meaning yet. No arm of `exec` answers it: every row of the table has its meaning. Safe. -/
  | notModelled (mnemonic : String)
  deriving DecidableEq, Repr

/-- What a step or a meaning answers. -/
abbrev Result := Host.Outcome State Fault Refusal

/-- The machine right after reset, at power-up of the whole (70_reset R250). The block's fields are the values of
R250. The chain's registers are unknown (R252, U4; log 4). The bus log and the inputs are empty, and the model's
own fields 0: DESIGN CHOICE (log 14). -/
def State.reset : State where
  mode := .unconfigured
  result := 0x00000000
  stgN := 0x00
  stgOrder := tabulate 256 (BitVec.ofNat 8)
  stgOrient := tabulate 256 fun _ => 0x0
  N := 0
  order := tabulate 256 fun _ => 0
  orient := tabulate 256 fun _ => 0
  fb := []
  batch := []
  busLog := []
  chain := tabulate 256 fun p => tabulate 16 (Config.chainPowerUp p)
  hpc := 0
  pending := []
  answers := []
  groupPos := 0
  draws := 0

end Sys2Proof.Machine
end

