-- ==== Sys2Proof/Machine/Chain.lean ====
section
/-! DEFINITION. The reference chain observer (40_protocol R104, R105): what the modules do with the groups they
take. From general knowledge of the MAX7219 (93 G7, G10, G11; log 3). -/

namespace Sys2Proof.Machine

/-- The registers of a module whose contents are unknown after draw `d` (U2, U3; log 5, log 6). -/
def unknownRegs (d p : Nat) : ModuleRegs := tabulate 16 (Config.chainUnknown d p)

/-- `regs[a] <- v`. -/
def setReg (regs : ModuleRegs) (a : BitVec 4) (v : Byte) : ModuleRegs := regs.set a.toNat v a.isLt

/-- Whether a register address names no register of the chip: 0xD and 0xE (30_encoding R87, U3). -/
def unnamedReg (a : BitVec 4) : Bool := a == 0xD || a == 0xE

/-- What a module at position `p` does with register address `a` and value `v` (40_protocol R105): nothing for
the No-Op, unknown registers for 0xD and 0xE (draw `d`), else `REG[p][a] <- v`. -/
def writeReg (d p : Nat) (a : BitVec 4) (v : Byte) (regs : ModuleRegs) : ModuleRegs :=
  if a = 0x0 then regs
  else if unnamedReg a then unknownRegs d p
  else setReg regs a v

/-- A module takes the group `(A, V)`; "`A[7:4]` is ignored" (40_protocol R105). -/
def takeGroup (d p : Nat) (A V : Byte) (regs : ModuleRegs) : ModuleRegs :=
  writeReg d p (A.extractLsb' 0 4) V regs

/-- The registers of the module at position `p`. -/
def chainAt (chain : Vector ModuleRegs 256) (p : Nat) : ModuleRegs :=
  chain[p]?.getD (tabulate 16 fun _ => 0)

/-- Register `a` of a module. -/
def regAt (regs : ModuleRegs) (a : BitVec 4) : Byte := regs[a.toNat]'a.isLt

/-- `REG[p][a]` (40_protocol R104). -/
def State.reg (s : State) (p : Nat) (a : BitVec 4) : Byte := regAt (chainAt s.chain p) a

/-- The position counted from the far end: the byte offset of position `p`'s group in a frame of `n` groups
(40_protocol R102, R104). -/
def groupOffset (n p : Nat) : Nat := 2 * (n - 1 - p)

/-- Latching: a frame of `2·n` bytes ended with `Ok`, and every module takes its group at the same moment
(40_protocol R104, 20_memory R64). The spec gives a position at or beyond `n` no module: its registers are unknown after
a transaction (free values, safe, log 11). -/
def latchFrame (d : Nat) (f : List Byte) (chain : Vector ModuleRegs 256) : Vector ModuleRegs 256 :=
  tabulate 256 fun p =>
    if p < f.length / 2 then
      takeGroup d p (f.getD (groupOffset (f.length / 2) p) 0) (f.getD (groupOffset (f.length / 2) p + 1) 0)
        (chainAt chain p)
    else unknownRegs d p

/-- After a transaction whose answer is `Err`, every register of every module is unknown (40_protocol R104). -/
def unknownChain (d : Nat) : Vector ModuleRegs 256 := tabulate 256 (unknownRegs d)

end Sys2Proof.Machine
end

