-- ==== Sys2Proof/Machine/Flags.lean ====
section
/-! DEFINITION. The block's only status: `RESULT.STATUS` and `MODE` (10_state R23). The status codes and the
result word (30_encoding R85, 60_exceptions R221). -/

namespace Sys2Proof.Machine

/-- The status of a command (60_exceptions R221). -/
inductive Status where
  | ok
  | configError
  | outOfRange
  | transportError
  | notInitialized
  | illegalCommand
  deriving DecidableEq, Repr

/-- The status code (30_encoding R85). -/
def Status.code : Status → BitVec 4
  | .ok => 0
  | .configError => 1
  | .outOfRange => 2
  | .transportError => 3
  | .notInitialized => 4
  | .illegalCommand => 5

/-- The result word: status in bits 31..28, data in bits 27..0 (30_encoding R85). -/
def resultWord (st : Status) (data : BitVec 28) : Word := st.code ++ data

/-- `STATUS = RESULT[31:28]` (10_state R22). -/
def statusField (w : Word) : BitVec 4 := w.extractLsb' 28 4

/-- `DATA = RESULT[27:0]` (10_state R22). -/
def dataField (w : Word) : BitVec 28 := w.extractLsb' 0 28

/-- A count or a length as the data of a result (30_encoding R86). -/
def countData (n : Nat) : BitVec 28 := BitVec.ofNat 28 n

/-- The data of MAP: `data[15:8] = p`, `data[5:3] = pr`, `data[2:0] = pc` (30_encoding R86, 42_layout R174). -/
def mapData (p : Byte) (pr pc : BitVec 3) : BitVec 28 := (p ++ 0#2 ++ pr ++ pc).setWidth 28

/-- The data of GET_PIXEL: `data[0]` is the bit (30_encoding R86, 42_layout R177). -/
def bitData (b : Bool) : BitVec 28 := (BitVec.ofBool b).setWidth 28

end Sys2Proof.Machine
end

