-- ==== Sys2Proof/Machine/Frame.lean ====
section
/-! DEFINITION. The frame builder (40_protocol R101 to R103), the partition of a batch into transactions (R120) and
the initialization sequence (41_config_init R147). All pure functions. -/

namespace Sys2Proof.Machine

/-- A slot map: the groups of one transaction, by physical position (40_protocol R101). -/
abbrev SlotMap := List (Nat × Group)

/-- `S[p]`. -/
def SlotMap.at (S : SlotMap) (p : Nat) : Option Group := S.lookup p

/-- The no-op group `(NOOP_ADDR, NOOP_VALUE)` (40_protocol R102, D5). -/
def noopGroup : Group := ⟨Config.noopAddr, Config.noopValue⟩

/-- The two bytes of a group: `[zext_8(a), v]` (40_protocol R102, 30_encoding R87). -/
def Group.bytes (g : Group) : List Byte := [g.addr.setWidth 8, g.value]

/-- `BuildFrame(N, S)`: the farthest module's group first (40_protocol R102). -/
def buildFrame (n : Nat) (S : SlotMap) : List Byte :=
  (List.range n).flatMap fun i => ((S.at (n - 1 - i)).getD noopGroup).bytes

/-- `{p ↦ g}` (40_protocol R101). -/
def oneSlot (p : Nat) (g : Group) : SlotMap := [(p, g)]

/-- `All(a, v)` on a chain of `n` modules (40_protocol R101). -/
def allSlots (n : Nat) (g : Group) : SlotMap := (List.range n).map fun p => (p, g)

/-- `FrameOne(N, p, a, v)` (40_protocol R103). -/
def frameOne (n p : Nat) (a : BitVec 4) (v : Byte) : List Byte := buildFrame n (oneSlot p ⟨a, v⟩)

/-- `FrameAll(N, a, v)` (40_protocol R103). -/
def frameAll (n : Nat) (a : BitVec 4) (v : Byte) : List Byte := buildFrame n (allSlots n ⟨a, v⟩)

/-- The slot a batch entry asks for. -/
def RegisterCommand.slot (c : RegisterCommand) : Nat × Group := (c.p.toNat, ⟨c.a, c.v⟩)

/-- The loop of `Partition` with the slot map `S` begun (40_protocol R120). -/
def partitionFrom (S : SlotMap) : List RegisterCommand → List SlotMap
  | [] => if S.isEmpty then [] else [S]
  | c :: L =>
    if (S.at c.p.toNat).isSome then S :: partitionFrom [c.slot] L
    else partitionFrom (S ++ [c.slot]) L

/-- `Partition(L)` (40_protocol R120). -/
def partition (L : List RegisterCommand) : List SlotMap := partitionFrom [] L

/-- The 13 groups of the initialization sequence, in order (41_config_init R147, D35). -/
def initGroups : List Group :=
  [ ⟨0xC, 0x01⟩, ⟨0xF, 0x00⟩, ⟨0x9, 0x00⟩, ⟨0xB, 0x07⟩, ⟨0xA, Config.initIntensity.setWidth 8⟩,
    ⟨0x1, 0x00⟩, ⟨0x2, 0x00⟩, ⟨0x3, 0x00⟩, ⟨0x4, 0x00⟩, ⟨0x5, 0x00⟩, ⟨0x6, 0x00⟩, ⟨0x7, 0x00⟩, ⟨0x8, 0x00⟩ ]

/-- `InitSeq(N)`: per position in ascending order, 13 single-target slot maps (41_config_init R147, D14). -/
def initSeq (n : Nat) : List SlotMap :=
  (List.range n).flatMap fun p => initGroups.map fun g => oneSlot p g

end Sys2Proof.Machine
end

