-- ==== Sys2Proof/Machine/Memory.lean ====
section
/-! DEFINITION. The Frame Buffer as a byte memory (20_memory R51): its canonical form, and reading and writing one
byte. One byte is the only access width. -/

namespace Sys2Proof.Machine

/-- What an unlisted row address reads as: "every byte 0x00" (10_state R30, 70_reset R250, 41_config_init R146). -/
def Memory.unlisted : Byte := 0x00

/-- The canonical form: addresses strictly rising, and no entry that holds what an unlisted address reads as. -/
abbrev Memory.wf (m : Memory) : Prop :=
  m.Pairwise (fun x y => x.1 < y.1) ∧ ∀ c ∈ m, c.2 ≠ Memory.unlisted

/-- The byte at row address `a`: `MemRead(a, 1)` (20_memory R51). -/
def Memory.read (a : Nat) : Memory → Byte
  | [] => Memory.unlisted
  | (b, w) :: m => if a = b then w else Memory.read a m

/-- List the byte `v` at `a` before `m`, unless an unlisted address reads as `v`. -/
def Memory.list (a : Nat) (v : Byte) (m : Memory) : Memory :=
  if v = Memory.unlisted then m else (a, v) :: m

/-- `m` with the byte `v` at row address `a`: `MemWrite(a, 1, v)` (20_memory R51). -/
def Memory.write (a : Nat) (v : Byte) : Memory → Memory
  | [] => Memory.list a v []
  | (b, w) :: m =>
    if a < b then Memory.list a v ((b, w) :: m)
    else if a = b then Memory.list a v m
    else (b, w) :: Memory.write a v m

/-- `m` with 0x00 at every row address below `n` (42_layout_framebuffer R178). -/
def Memory.clear (n : Nat) (m : Memory) : Memory :=
  (List.range n).foldl (fun m a => Memory.write a 0x00 m) m

end Sys2Proof.Machine
end

