-- ==== Sys2Proof/Machine/Ops.lean ====
section
/-! DEFINITION. The operations the meanings share: ending a command with a status or with data, the Frame Buffer row
view, `Transmit` and the transmit loop, and a module taking a group.

The block has no traps (60_exceptions R220, R233): an error "does not transfer control, save state, change any mode
or vector anywhere. It ends the command". `raise` is that one operation. There is nothing to return from (R234):
after any status the next step takes the next command. -/

namespace Sys2Proof.Machine

/-- `raise S(info)`: the command ends, and RESULT holds the status and the data (00_scope R8, 60_exceptions R220,
R221). What stands of the command's earlier changes is in `s` (R223). -/
def raise (st : Status) (data : BitVec 28) (s : State) : Result :=
  .next { s with result := resultWord st data }

/-- `return data`: the command ends with status OK (00_scope R8). -/
def finish (data : BitVec 28) (s : State) : Result :=
  .next { s with result := resultWord .ok data }

/-- A word that does not decode: `RESULT <- 0x50000000` "and nothing else" (60_exceptions R222). -/
def rejectIllegal (s : State) : Result := raise .illegalCommand 0 s

/-- The committed matrixCount as a number (10_state R27). -/
def State.count (s : State) : Nat := s.N.toNat

/-- `MemRead(a, 1)`: none where the row address does not exist (20_memory R51). -/
def rowRead (a : Nat) (s : State) : Option Byte :=
  if a < 8 * s.count then some (Memory.read a s.fb) else none

/-- `MemWrite(a, 1, v)` (20_memory R51). -/
def rowWrite (a : Nat) (v : Byte) (s : State) : State := { s with fb := Memory.write a v s.fb }

/-- The transport's answer to the next `Transmit`: the environment's next answer, or a free value where it has
supplied none (40_protocol R100, U1; log 1). -/
def State.nextAnswer (s : State) : Answer :=
  match s.answers with
  | a :: _ => a
  | [] => Config.transportAnswer s.busLog.length

/-- `Transmit(f)`: the pair `(f, answer)` goes into the bus log (40_protocol R100), and the chain latches the frame
or becomes unknown (R104). The answer is `s.nextAnswer`. -/
def transmit (f : List Byte) (s : State) : State :=
  { s with
    answers := s.answers.tail
    busLog := s.busLog ++ [⟨f, s.nextAnswer⟩]
    chain := match s.nextAnswer with
      | .ok => latchFrame s.draws f s.chain
      | .err => unknownChain s.draws
    draws := s.draws + 1 }

/-- What a transmit loop answers: whether every transaction was `Ok`, how many were `Ok`, and the state after. -/
structure Sent where
  answer : Answer
  count : Nat
  state : State

/-- `SendTxns(N, T)`: in order, stopping at the first failure (40_protocol R107). -/
def sendTxns (n : Nat) : List SlotMap → State → Sent
  | [], s => ⟨.ok, 0, s⟩
  | S :: T, s =>
    match s.nextAnswer with
    | .err => ⟨.err, 0, transmit (buildFrame n S) s⟩
    | .ok =>
      let r := sendTxns n T (transmit (buildFrame n S) s)
      ⟨r.answer, r.count + 1, r.state⟩

/-- The end of a command that sent a list of transactions: TRANSPORT_ERROR with the count of those answered `Ok`, or
`data` (30_encoding R86, D18). -/
def endSend (data : BitVec 28) (r : Sent) : Result :=
  match r.answer with
  | .err => raise .transportError (countData r.count) r.state
  | .ok => finish data r.state

/-- The end of a command that sends one frame: TRANSPORT_ERROR with 0, or 1 (40_protocol R110, R125, R130). -/
def sendSingle (f : List Byte) (s : State) : Result :=
  match s.nextAnswer with
  | .err => raise .transportError 0 (transmit f s)
  | .ok => finish 1 (transmit f s)

/-- The module at position `s.groupPos` takes a group with register address `a` and value byte `v` (40_protocol R105).
A group with the No-Op address does nothing. -/
def moduleTakes (a : BitVec 4) (v : Byte) (s : State) : State :=
  if a = 0x0 then s
  else { s with
    chain := s.chain.set s.groupPos.val
      (writeReg s.draws s.groupPos.val a v (chainAt s.chain s.groupPos.val)) s.groupPos.isLt
    draws := s.draws + 1 }

/-- A reset of the block, between commands (70_reset R250 to R253): the block's own fields take their reset values,
nothing is sent, and the chain keeps its registers (log 10). -/
def resetBlock (s : State) : State :=
  { s with
    mode := State.reset.mode
    result := State.reset.result
    stgN := State.reset.stgN
    stgOrder := State.reset.stgOrder
    stgOrient := State.reset.stgOrient
    N := State.reset.N
    order := State.reset.order
    orient := State.reset.orient
    fb := State.reset.fb
    batch := State.reset.batch }

end Sys2Proof.Machine
end

