-- ==== Sys2Proof/Machine/ChipGroup.lean ====
section
/-! DEFINITION. The meanings of the sixteen groups a module of the chain takes (40_protocol R105, 30_encoding R87):
the module at position `groupPos` takes the group with that row's register address and the value byte. -/

namespace Sys2Proof.Machine

/-- MAX7219_NOOP: does nothing (40_protocol R105). -/
def execMax7219Noop (v : Byte) (s : State) : Result := .next (moduleTakes 0x0 v s)

/-- MAX7219_DIGIT0: sets register 0x1 (40_protocol R105). -/
def execMax7219Digit0 (v : Byte) (s : State) : Result := .next (moduleTakes 0x1 v s)

/-- MAX7219_DIGIT1: sets register 0x2 (40_protocol R105). -/
def execMax7219Digit1 (v : Byte) (s : State) : Result := .next (moduleTakes 0x2 v s)

/-- MAX7219_DIGIT2: sets register 0x3 (40_protocol R105). -/
def execMax7219Digit2 (v : Byte) (s : State) : Result := .next (moduleTakes 0x3 v s)

/-- MAX7219_DIGIT3: sets register 0x4 (40_protocol R105). -/
def execMax7219Digit3 (v : Byte) (s : State) : Result := .next (moduleTakes 0x4 v s)

/-- MAX7219_DIGIT4: sets register 0x5 (40_protocol R105). -/
def execMax7219Digit4 (v : Byte) (s : State) : Result := .next (moduleTakes 0x5 v s)

/-- MAX7219_DIGIT5: sets register 0x6 (40_protocol R105). -/
def execMax7219Digit5 (v : Byte) (s : State) : Result := .next (moduleTakes 0x6 v s)

/-- MAX7219_DIGIT6: sets register 0x7 (40_protocol R105). -/
def execMax7219Digit6 (v : Byte) (s : State) : Result := .next (moduleTakes 0x7 v s)

/-- MAX7219_DIGIT7: sets register 0x8 (40_protocol R105). -/
def execMax7219Digit7 (v : Byte) (s : State) : Result := .next (moduleTakes 0x8 v s)

/-- MAX7219_DECODE_MODE: sets register 0x9 (40_protocol R105). -/
def execMax7219DecodeMode (v : Byte) (s : State) : Result := .next (moduleTakes 0x9 v s)

/-- MAX7219_INTENSITY: sets register 0xA (40_protocol R105). -/
def execMax7219Intensity (v : Byte) (s : State) : Result := .next (moduleTakes 0xA v s)

/-- MAX7219_SCAN_LIMIT: sets register 0xB (40_protocol R105). -/
def execMax7219ScanLimit (v : Byte) (s : State) : Result := .next (moduleTakes 0xB v s)

/-- MAX7219_SHUTDOWN: sets register 0xC (40_protocol R105). -/
def execMax7219Shutdown (v : Byte) (s : State) : Result := .next (moduleTakes 0xC v s)

/-- MAX7219_ADDR_D: leaves every register of the module unknown (U3) (40_protocol R105). -/
def execMax7219AddrD (v : Byte) (s : State) : Result := .next (moduleTakes 0xD v s)

/-- MAX7219_ADDR_E: leaves every register of the module unknown (U3) (40_protocol R105). -/
def execMax7219AddrE (v : Byte) (s : State) : Result := .next (moduleTakes 0xE v s)

/-- MAX7219_DISPLAY_TEST: sets register 0xF (40_protocol R105). -/
def execMax7219DisplayTest (v : Byte) (s : State) : Result := .next (moduleTakes 0xF v s)

end Sys2Proof.Machine
end

