-- ==== Sys2Proof/Machine/Layout.lean ====
section
/-! DEFINITION. The layout mapper: the orientation LUT (42_layout_framebuffer R170, R171) and the translation from
a logical to a physical pixel (R173). -/

namespace Sys2Proof.Machine

/-- A physical cell: chain position, physical row, physical column (00_scope R11). -/
structure PhysPixel where
  p : Byte
  pr : BitVec 3
  pc : BitVec 3
  deriving DecidableEq, Repr

/-- The rotation `ROT = o[1:0]`, clockwise, of `(r, c)` (42_layout R171, 10_state R26). -/
def rotate (o : BitVec 4) (r c : BitVec 3) : BitVec 3 × BitVec 3 :=
  match (o.extractLsb' 0 2).toNat with
  | 0 => (r, c)
  | 1 => (c, 7 - r)
  | 2 => (7 - r, 7 - c)
  | _ => (7 - c, r)

/-- `HFLIP = o[2]` mirrors the physical column (42_layout R171). -/
def hflip (o : BitVec 4) (q : BitVec 3 × BitVec 3) : BitVec 3 × BitVec 3 :=
  if o.getLsbD 2 then (q.1, 7 - q.2) else q

/-- `VFLIP = o[3]` mirrors the physical row (42_layout R171). -/
def vflip (o : BitVec 4) (q : BitVec 3 × BitVec 3) : BitVec 3 × BitVec 3 :=
  if o.getLsbD 3 then (7 - q.1, q.2) else q

/-- `Map(o, r, c)`: rotation, then hflip, then vflip (42_layout R171, D11). -/
def mapCell (o : BitVec 4) (r c : BitVec 3) : BitVec 3 × BitVec 3 := vflip o (hflip o (rotate o r c))

/-- `ORDER[m]` (10_state R28). -/
def State.orderAt (s : State) (m : Nat) : Byte := s.order[m]?.getD 0

/-- `ORIENT[m]` (10_state R29). -/
def State.orientAt (s : State) (m : Nat) : BitVec 4 := s.orient[m]?.getD 0

/-- `STG_ORDER[m]` (10_state R25). -/
def State.stgOrderAt (s : State) (m : Nat) : Byte := s.stgOrder[m]?.getD 0

/-- `STG_ORIENT[m]` (10_state R26). -/
def State.stgOrientAt (s : State) (m : Nat) : BitVec 4 := s.stgOrient[m]?.getD 0

/-- `LMap(m, r, c) = (ORDER[m], pr, pc)` with `(pr, pc) = Map(ORIENT[m], r, c)` (42_layout R173). Called once
`r` and `c` are known to be below 8. -/
def lmap (s : State) (m r c : Nat) : PhysPixel :=
  let q := mapCell (s.orientAt m) (BitVec.ofNat 3 r) (BitVec.ofNat 3 c)
  ⟨s.orderAt m, q.1, q.2⟩

/-- The row address `8·p + pr` of a physical cell (20_memory R51, 42_layout R173). -/
def PhysPixel.rowAddress (q : PhysPixel) : Nat := 8 * q.p.toNat + q.pr.toNat

/-- The bit of weight `2^pc` (20_memory R57). -/
def columnMask (pc : BitVec 3) : Byte := 1#8 <<< pc.toNat

/-- A row byte with the cell of column `pc` written (42_layout R176). -/
def setCell (b : Byte) (pc : BitVec 3) (on : Bool) : Byte :=
  if on then b ||| columnMask pc else b &&& ~~~ columnMask pc

/-- The cell of column `pc` of a row byte (42_layout R177). -/
def getCell (b : Byte) (pc : BitVec 3) : Bool := b.getLsbD pc.toNat

end Sys2Proof.Machine
end

