-- ==== Sys2Proof/Machine/Operands.lean ====
section
/-! DEFINITION. The checks on the mode and on the operands that the commands share. Fields are read from the command
word by the decoder (30_encoding R79); every range check is part of the command's rule. A check that fails changes
no state but RESULT (60_exceptions R223). -/

namespace Sys2Proof.Machine

/-- `if MODE = Unconfigured: raise NOT_INITIALIZED(0)` (10_state R21, 60_exceptions R221). -/
def configuredOnly (s : State) (rest : Result) : Result :=
  match s.mode with
  | .unconfigured => raise .notInitialized 0 s
  | .configured => rest

/-- `if p ≥ N: raise OUT_OF_RANGE(0)` (40_protocol R110, R115). -/
def checkPosition (p : Nat) (s : State) (rest : Result) : Result :=
  if s.count ≤ p then raise .outOfRange 0 s else rest

/-- `CheckPix(m, r, c)` (42_layout_framebuffer R175). -/
def checkPix (m r c : Nat) (s : State) (rest : Result) : Result :=
  configuredOnly s <| if s.count ≤ m ∨ 8 ≤ r ∨ 8 ≤ c then raise .outOfRange 0 s else rest

/-- The entries of the staged order that INIT reads (10_state R25). -/
def State.stagedOrder (s : State) : List Nat := (List.range s.stgN.toNat).map fun m => (s.stgOrderAt m).toNat

/-- `ValidConfig()` (41_config_init R145). -/
def State.validConfig (s : State) : Bool :=
  s.stgN.toNat != 0
    && s.stagedOrder.all (fun p => decide (p < s.stgN.toNat))
    && decide (s.stagedOrder.Pairwise fun p q => p ≠ q)

end Sys2Proof.Machine
end

