-- ==== Sys2Proof/Machine/Configuration.lean ====
section
/-! DEFINITION. The meanings of CFG_COUNT, CFG_MODULE and INIT (41_config_init). -/

namespace Sys2Proof.Machine

/-- CFG_COUNT (41_config_init R140). -/
def execCfgCount (n : Nat) (s : State) : Result :=
  finish 0 { s with stgN := BitVec.ofNat 8 n }

/-- CFG_MODULE (41_config_init R142). -/
def execCfgModule (m p : Nat) (o : BitVec 4) (s : State) : Result :=
  finish 0
    { s with
      stgOrder := s.stgOrder.setIfInBounds m (BitVec.ofNat 8 p)
      stgOrient := s.stgOrient.setIfInBounds m o }

/-- The commits of INIT, which "stand even if a raise follows" (41_config_init R146). -/
def commitConfig (s : State) : State :=
  { s with
    N := s.stgN
    order := tabulate 256 fun m => if m < s.stgN.toNat then s.stgOrderAt m else s.orderAt m
    orient := tabulate 256 fun m => if m < s.stgN.toNat then s.stgOrientAt m else s.orientAt m
    fb := []
    batch := []
    mode := .configured }

/-- INIT (41_config_init R146). -/
def execInit (s : State) : Result :=
  if s.validConfig then
    let r := sendTxns s.stgN.toNat (initSeq s.stgN.toNat) (commitConfig s)
    endSend (countData r.count) r
  else raise .configError 0 s

end Sys2Proof.Machine
end

