-- ==== Sys2Proof/Machine/FrameBuffer.lean ====
section
/-! DEFINITION. The meanings of MAP, SET_PIXEL, GET_PIXEL, CLEAR and FLUSH (42_layout_framebuffer). -/

namespace Sys2Proof.Machine

/-- MAP (42_layout_framebuffer R174). -/
def execMap (m r c : Nat) (s : State) : Result :=
  checkPix m r c s <|
    let q := lmap s m r c
    finish (mapData q.p q.pr q.pc) s

/-- SET_PIXEL (42_layout_framebuffer R176). -/
def execSetPixel (m r c : Nat) (on : Bool) (s : State) : Result :=
  checkPix m r c s <|
    let q := lmap s m r c
    match rowRead q.rowAddress s with
    | some b => finish 0 (rowWrite q.rowAddress (setCell b q.pc on) s)
    | none => .fault (.rowAddress q.rowAddress)

/-- GET_PIXEL (42_layout_framebuffer R177). -/
def execGetPixel (m r c : Nat) (s : State) : Result :=
  checkPix m r c s <|
    let q := lmap s m r c
    match rowRead q.rowAddress s with
    | some b => finish (bitData (getCell b q.pc)) s
    | none => .fault (.rowAddress q.rowAddress)

/-- CLEAR (42_layout_framebuffer R178). -/
def execClear (s : State) : Result :=
  configuredOnly s <| finish 0 { s with fb := Memory.clear (8 * s.count) s.fb }

/-- The slot map `S_pr` of FLUSH: `S_pr[p] = (pr + 1, MemRead(8·p + pr, 1))` for every `p` below `N`
(42_layout_framebuffer R179). The loop bounds keep every row address below `8·N`. -/
def rowSlots (s : State) (pr : Nat) : SlotMap :=
  (List.range s.count).map fun p => (p, ⟨BitVec.ofNat 4 (pr + 1), Memory.read (8 * p + pr) s.fb⟩)

/-- FLUSH (42_layout_framebuffer R179). -/
def execFlush (s : State) : Result :=
  configuredOnly s <| endSend 8 (sendTxns s.count ((List.range 8).map (rowSlots s)) s)

end Sys2Proof.Machine
end

