-- ==== Sys2Proof/Machine/Protocol.lean ====
section
/-! DEFINITION. The meanings of SEND_ONE, BATCH_PUT, BATCH_SEND, SET_INTENSITY and SET_TEST_MODE (40_protocol). -/

namespace Sys2Proof.Machine

/-- SEND_ONE (40_protocol R110). -/
def execSendOne (p : Nat) (a : BitVec 4) (v : Byte) (s : State) : Result :=
  configuredOnly s <| checkPosition p s <| sendSingle (frameOne s.count p a v) s

/-- BATCH_PUT (40_protocol R115). -/
def execBatchPut (p : Nat) (a : BitVec 4) (v : Byte) (s : State) : Result :=
  configuredOnly s <| checkPosition p s <|
    if s.batch.length = Config.batchMax then raise .outOfRange 0 s
    else finish (countData (s.batch.length + 1)) { s with batch := s.batch ++ [⟨BitVec.ofNat 8 p, a, v⟩] }

/-- BATCH_SEND (40_protocol R121). -/
def execBatchSend (s : State) : Result :=
  configuredOnly s <|
    let r := sendTxns s.count (partition s.batch) { s with batch := [] }
    endSend (countData r.count) r

/-- SET_INTENSITY (40_protocol R125). -/
def execSetIntensity (v : Nat) (s : State) : Result :=
  configuredOnly s <|
    if 15 < v then raise .outOfRange 0 s
    else sendSingle (frameAll s.count 0xA (BitVec.ofNat 8 v)) s

/-- SET_TEST_MODE (40_protocol R130). -/
def execSetTestMode (b : Bool) (s : State) : Result :=
  configuredOnly s <| sendSingle (frameAll s.count 0xF ((BitVec.ofBool b).setWidth 8)) s

end Sys2Proof.Machine
end

