-- ==== Sys2Proof/Machine/Dispatch.lean ====
section
/-! DEFINITION. The dispatch: one arm for each row of spec/opcode_table.json. -/

namespace Sys2Proof.Machine

def exec (i : Instr) (s : State) : Host.Outcome State Fault Refusal :=
  match i with
  | .cfgCount n => Sys2Proof.Machine.execCfgCount n s
  | .cfgModule m p o => Sys2Proof.Machine.execCfgModule m p o s
  | .init => Sys2Proof.Machine.execInit s
  | .sendOne p a v => Sys2Proof.Machine.execSendOne p a v s
  | .batchPut p a v => Sys2Proof.Machine.execBatchPut p a v s
  | .batchSend => Sys2Proof.Machine.execBatchSend s
  | .setIntensity v => Sys2Proof.Machine.execSetIntensity v s
  | .setTestMode b => Sys2Proof.Machine.execSetTestMode b s
  | .setPixel m r c on => Sys2Proof.Machine.execSetPixel m r c on s
  | .getPixel m r c => Sys2Proof.Machine.execGetPixel m r c s
  | .clear => Sys2Proof.Machine.execClear s
  | .flush => Sys2Proof.Machine.execFlush s
  | .map m r c => Sys2Proof.Machine.execMap m r c s
  | .max7219Noop v => Sys2Proof.Machine.execMax7219Noop v s
  | .max7219Digit0 v => Sys2Proof.Machine.execMax7219Digit0 v s
  | .max7219Digit1 v => Sys2Proof.Machine.execMax7219Digit1 v s
  | .max7219Digit2 v => Sys2Proof.Machine.execMax7219Digit2 v s
  | .max7219Digit3 v => Sys2Proof.Machine.execMax7219Digit3 v s
  | .max7219Digit4 v => Sys2Proof.Machine.execMax7219Digit4 v s
  | .max7219Digit5 v => Sys2Proof.Machine.execMax7219Digit5 v s
  | .max7219Digit6 v => Sys2Proof.Machine.execMax7219Digit6 v s
  | .max7219Digit7 v => Sys2Proof.Machine.execMax7219Digit7 v s
  | .max7219DecodeMode v => Sys2Proof.Machine.execMax7219DecodeMode v s
  | .max7219Intensity v => Sys2Proof.Machine.execMax7219Intensity v s
  | .max7219ScanLimit v => Sys2Proof.Machine.execMax7219ScanLimit v s
  | .max7219Shutdown v => Sys2Proof.Machine.execMax7219Shutdown v s
  | .max7219AddrD v => Sys2Proof.Machine.execMax7219AddrD v s
  | .max7219AddrE v => Sys2Proof.Machine.execMax7219AddrE v s
  | .max7219DisplayTest v => Sys2Proof.Machine.execMax7219DisplayTest v s

end Sys2Proof.Machine
end

