-- ==== Sys2Proof/Machine/Fetch.lean ====
section
/-! DEFINITION. Taking the next input: a command word from the host port, a group for one module, or a reset of the
block. -/

namespace Sys2Proof.Machine

/-- Issue the command word `w`: `hpc` advances by 1 "whatever the status" (10_state R20, D31), and the word is
decoded (30_encoding R81) and run, or rejected (60_exceptions R222). -/
def runCommand (w : Word) (s : State) : Result :=
  match decodeCommand w with
  | .ok i => exec i { s with hpc := s.hpc + 1 }
  | .error _ => rejectIllegal { s with hpc := s.hpc + 1 }

/-- The module at position `p` takes the group `w` (40_protocol R105; log 7). -/
def runGroup (p : Fin 256) (w : GroupWord) (s : State) : Result :=
  exec (decodeGroup w) { s with groupPos := p }

/-- Take the input `x` (20_memory R60: all of it before the next one). -/
def runInput (x : Input) (s : State) : Result :=
  match x with
  | .command w => runCommand w s
  | .group p w => runGroup p w s
  | .reset => .next (resetBlock s)

/-- One step: the first pending input, or, with none, waiting (70_reset R271; log 8). -/
def stepInput (s : State) : Result :=
  match s.pending with
  | [] => .next s
  | x :: rest => runInput x { s with pending := rest }

/-- `s` with the words of an instruction as its next input (log 9). -/
def offer (c : Code) (s : State) : State :=
  match c with
  | .command w => { s with pending := .command w :: s.pending }
  | .group w => { s with pending := .group s.groupPos w :: s.pending }

end Sys2Proof.Machine
end

