-- ==== Sys2Proof/Machine/Step.lean ====
section
/-! DEFINITION. One step of the machine, and placing the instruction that the next step runs. -/

namespace Sys2Proof.Machine

/-- One step: "It performs one host command per step" (10_state R20). -/
def step (s : State) : Host.Outcome State Fault Refusal := stepInput s

/-- `s` with the instruction whose bits are `w` where `step` takes its next input; `s` itself for a number of bits
that no row of the table has (log 9). -/
def State.withFetchWord (s : State) (nbits w : Nat) : State :=
  match codeOfTable nbits w with
  | some c => offer c s
  | none => s

end Sys2Proof.Machine
end

