-- ==== Sys2Proof/Machine/Assembler.lean ====
section
/-! DEFINITION. The assembler of 30_encoding R88 and the pseudo-instructions of R89: one line of text to the commands
it stands for. It is the host's tool and no part of the machine's step (log 19). -/

namespace Sys2Proof.Machine

/-- The pseudo-instructions (30_encoding R89). -/
inductive Pseudo where
  | cfgLinear (n : Nat)
  | writeRow (p r : Nat) (v : Byte)
  | noopFrame
  | shutdown (p s : Nat)
  | broadcast (n : Nat) (a : BitVec 4) (v : Byte)
  | pixelOff (m r c : Nat)
  deriving DecidableEq, Repr

/-- The expansion of a pseudo-instruction, where its condition holds (30_encoding R89). `committed` is the committed
`N`, which the condition of `broadcast` names. -/
def expand (committed : Nat) : Pseudo → Option (List Instr)
  | .cfgLinear n =>
    if 1 ≤ n ∧ n ≤ 255 then some (.cfgCount n :: (List.range n).map fun k => .cfgModule k k 0) else none
  | .writeRow p r v => if r < 8 then some [.sendOne p (BitVec.ofNat 4 (r + 1)) v] else none
  | .noopFrame => some [.sendOne 0 0x0 0x00]
  | .shutdown p s => if s ≤ 1 then some [.sendOne p 0xC (if s = 1 then 0x00 else 0x01)] else none
  | .broadcast n a v =>
    if n = committed then some ((List.range n).map (fun k => .batchPut k a v) ++ [.batchSend]) else none
  | .pixelOff m r c => some [.setPixel m r c false]

/-- An operand that fits a field of `w` bits (30_encoding R88). -/
def operandBits (w x : Nat) : Option (BitVec w) := if x < 2 ^ w then some (BitVec.ofNat w x) else none

/-- An operand of one bit (30_encoding R88). -/
def operandBool (x : Nat) : Option Bool := if x < 2 then some (x = 1) else none

/-- The commands of a mnemonic with its operands, before the widths of the index operands are checked
(30_encoding R88, R89). -/
def readOperation (committed : Nat) (mnemonic : String) (ops : List Nat) : Option (List Instr) :=
  match mnemonic, ops with
  | "cfg_count", [n] => some [.cfgCount n]
  | "cfg_module", [m, p, o] => do some [.cfgModule m p (← operandBits 4 o)]
  | "init", [] => some [.init]
  | "send_one", [p, a, v] => do some [.sendOne p (← operandBits 4 a) (← operandBits 8 v)]
  | "batch_put", [p, a, v] => do some [.batchPut p (← operandBits 4 a) (← operandBits 8 v)]
  | "batch_send", [] => some [.batchSend]
  | "set_intensity", [v] => some [.setIntensity v]
  | "set_test_mode", [b] => do some [.setTestMode (← operandBool b)]
  | "set_pixel", [m, r, c, on] => do some [.setPixel m r c (← operandBool on)]
  | "get_pixel", [m, r, c] => some [.getPixel m r c]
  | "clear", [] => some [.clear]
  | "flush", [] => some [.flush]
  | "map", [m, r, c] => some [.map m r c]
  | "cfg_linear", [n] => expand committed (.cfgLinear n)
  | "write_row", [p, r, v] => do expand committed (.writeRow p r (← operandBits 8 v))
  | "noop_frame", [] => expand committed .noopFrame
  | "shutdown", [p, s] => expand committed (.shutdown p s)
  | "broadcast", [n, a, v] => do expand committed (.broadcast n (← operandBits 4 a) (← operandBits 8 v))
  | "pixel_off", [m, r, c] => expand committed (.pixelOff m r c)
  | _, _ => none

/-- The commands of a mnemonic with its operands; "An operand wider than its field is an assembly error"
(30_encoding R88). -/
def assembleOperation (committed : Nat) (mnemonic : String) (ops : List Nat) : Option (List Instr) :=
  (readOperation committed mnemonic ops).filter fun is => is.all Instr.wellFormed

/-! ### The text of a line -/

/-- A blank between the parts of a line. -/
def isBlank (x : Char) : Bool := x == ' ' || x == '\t'

/-- `l` without blanks at either end. -/
def trimBlanks (l : List Char) : List Char := ((l.dropWhile isBlank).reverse.dropWhile isBlank).reverse

/-- The parts of `l` between its commas. -/
def splitCommas : List Char → List (List Char)
  | [] => [[]]
  | x :: l =>
    match splitCommas l with
    | [] => [[x]]
    | w :: ws => if x = ',' then [] :: w :: ws else (x :: w) :: ws

/-- The value of a digit, below `base`. -/
def digitValue (base : Nat) (x : Char) : Option Nat :=
  let d := if '0' ≤ x ∧ x ≤ '9' then x.toNat - '0'.toNat
    else if 'a' ≤ x ∧ x ≤ 'f' then x.toNat - 'a'.toNat + 10
    else if 'A' ≤ x ∧ x ≤ 'F' then x.toNat - 'A'.toNat + 10
    else base
  if d < base then some d else none

/-- The number with these digits. -/
def digitsValue (base : Nat) (l : List Char) : Option Nat :=
  match l with
  | [] => none
  | _ => l.foldlM (fun n x => (digitValue base x).map fun d => base * n + d) 0

/-- A number: decimal, or hexadecimal with `0x` (30_encoding R88). -/
def parseNumber : List Char → Option Nat
  | '0' :: 'x' :: l => digitsValue 16 l
  | l => digitsValue 10 l

/-- The operands of a line, comma-separated. -/
def parseOperands (l : List Char) : Option (List Nat) :=
  if l.isEmpty then some [] else (splitCommas l).mapM fun w => parseNumber (trimBlanks w)

/-- The commands of a line: none for an assembly error, no command for a line with no mnemonic. A comment runs from
`;` to the end of the line (30_encoding R88). -/
def assembleLine (committed : Nat) (line : String) : Option (List Instr) :=
  let text := trimBlanks (line.toList.takeWhile (· != ';'))
  let mnemonic := text.takeWhile (!isBlank ·)
  if mnemonic.isEmpty then some []
  else do
    let ops ← parseOperands (trimBlanks (text.drop mnemonic.length))
    assembleOperation committed (String.ofList mnemonic) ops

end Sys2Proof.Machine
end

