-- ==== Sys2Proof/Machine/Display.lean ====
section
/-! DEFINITION. Reading the display (40_protocol R106), "for reference only. No rule of the block depends on it". From
general knowledge of the MAX7219 (93 G12; log 3). -/

namespace Sys2Proof.Machine

/-- The row register of physical row `pr`: address `pr + 1` (30_encoding R87, D12). -/
def rowRegister (pr : BitVec 3) : BitVec 4 := pr.setWidth 4 + 1

/-- The LED at physical `(pr, pc)` of the module at position `p` is lit (40_protocol R106). With a decode mode other
than 0x00 the reading is unknown: a free value (U5; log 16). -/
def ledLit (s : State) (p : Nat) (pr pc : BitVec 3) : Bool :=
  if s.reg p 0x9 = 0x00 then
    (s.reg p 0xF).getLsbD 0
      || ((s.reg p 0xC).getLsbD 0
          && decide (pr.toNat ≤ ((s.reg p 0xB).extractLsb' 0 3).toNat)
          && (s.reg p (rowRegister pr)).getLsbD pc.toNat)
  else Config.ledUnknown s.draws p pr.toNat pc.toNat

end Sys2Proof.Machine
end

