-- ==== Sys2Proof/Safety.lean ====
section
/-! DEFINITION. The terms claims are stated in: the invariant of 10_state R34, safe steps, and what a command sent
and left unchanged. -/

namespace Sys2Proof.Machine

/-- The committed order, `ORDER[0..N-1]`, as numbers (10_state R28). -/
def State.committedOrder (s : State) : List Nat := (List.range s.count).map fun m => (s.orderAt m).toNat

/-- The invariants of 10_state R34 with R21, R30 and R32: while Configured, `1 ≤ N ≤ 255` (the width of `N` gives the
upper bound), `ORDER[0..N-1]` is a permutation of `0..N-1`, `FB` holds no module beyond `N`, and every `BATCH` entry has
`p < N`; while Unconfigured, `BATCH` is empty; always, `len(BATCH) ≤ BATCH_MAX` and the memory is in its canonical
form. -/
abbrev State.Inv (s : State) : Prop :=
  s.batch.length ≤ Config.batchMax ∧
  Memory.wf s.fb ∧
  (s.mode = .unconfigured → s.batch = []) ∧
  (s.mode = .configured →
    1 ≤ s.count ∧
    s.committedOrder.Perm (List.range s.count) ∧
    (∀ x ∈ s.fb, x.1 < 8 * s.count) ∧
    (∀ e ∈ s.batch, e.p.toNat < s.count))

/-- A step is safe: it stops neither with a fault nor with a refusal. -/
def SafeStep (s : State) : Prop := ∃ t, step s = .next t

/-- A pixel address is in range (20_memory R52). -/
abbrev validPixel (s : State) (m r c : Nat) : Prop := m < s.count ∧ r < 8 ∧ c < 8

/-- The transactions of frames `fs`, all answered `Ok`. -/
def okTransactions (fs : List (List Byte)) : List Transaction := fs.map fun f => ⟨f, .ok⟩

/-- The answer the transport will give to the `k`-th `Transmit` from here, counting from 0: the environment's, or a free
value where it has supplied none (40_protocol R100, U1). -/
def State.answerAt (s : State) (k : Nat) : Answer :=
  (s.answers[k]?).getD (Config.transportAnswer (s.busLog.length + k))

/-- The transport answers `Ok` to the next `k` calls of `Transmit`. -/
abbrev okFor (k : Nat) (s : State) : Prop := ∀ j, j < k → s.answerAt j = .ok

/-- The transport answers `Ok` to the next `k` calls of `Transmit` and `Err` to the one after. -/
abbrev failsAt (k : Nat) (s : State) : Prop := okFor k s ∧ s.answerAt k = .err

/-- `s` after the frames of `new` were given to `Transmit`, one after the other (20_memory R63). -/
def replay (s : State) (new : List Transaction) : State := new.foldl (fun u x => transmit x.frame u) s

/-- The last command of `L` that gives register `a` of the module at `p` a value. -/
def lastWrite (L : List RegisterCommand) (p : Nat) (a : BitVec 4) : Option Byte :=
  (L.reverse.find? fun e => e.p.toNat == p && e.a == a && a != 0x0).map RegisterCommand.v

/-- The text of an operand of an assembler line: decimal, or hexadecimal with `0x` (30_encoding R88). -/
def numberText (hex : Bool) (x : Nat) : List Char :=
  if hex then '0' :: 'x' :: Nat.toDigits 16 x else Nat.toDigits 10 x

/-- The expansion of a pseudo-instruction on a committed chain of `n` modules, where every operand of its commands fits its
field (30_encoding R89, R88). -/
def fittingExpansion (n : Nat) (x : Pseudo) : Option (List Instr) :=
  (expand n x).filter fun is => is.all Instr.wellFormed

/-- The frame for one module (40_protocol R102, R103): on a chain of `n` modules, the group `(a, v)` for position `p`, the
no-op group `(0x00, 0x00)` for every other, the farthest module first. -/
def frameForOne (n p : Nat) (a : BitVec 4) (v : Byte) : List Byte :=
  (List.range n).flatMap fun i => if n - 1 - i = p then [a.setWidth 8, v] else [0x00, 0x00]

/-- The frame with the group `(a, v)` for every module (40_protocol R103). -/
def frameForEvery (n : Nat) (a : BitVec 4) (v : Byte) : List Byte :=
  (List.range n).flatMap fun _ => [a.setWidth 8, v]

/-- The frame of FLUSH for row `pr`: `[pr+1, FB[N-1][pr], …, pr+1, FB[0][pr]]` (42_layout_framebuffer R179). -/
def frameForRow (s : State) (pr : Nat) : List Byte :=
  (List.range s.count).flatMap fun i =>
    [BitVec.ofNat 8 (pr + 1), Memory.read (8 * (s.count - 1 - i) + pr) s.fb]

/-- The frames of the initialization sequence (41_config_init R147), in order: for each position in ascending order,
thirteen frames for that position alone. -/
def initFrames (n : Nat) : List (List Byte) :=
  (List.range n).flatMap fun p =>
    [ frameForOne n p 0xC 0x01, frameForOne n p 0xF 0x00, frameForOne n p 0x9 0x00, frameForOne n p 0xB 0x07,
      frameForOne n p 0xA (Config.initIntensity.setWidth 8),
      frameForOne n p 0x1 0x00, frameForOne n p 0x2 0x00, frameForOne n p 0x3 0x00, frameForOne n p 0x4 0x00,
      frameForOne n p 0x5 0x00, frameForOne n p 0x6 0x00, frameForOne n p 0x7 0x00, frameForOne n p 0x8 0x00 ]

/-- The staged configuration is one that INIT accepts (41_config_init R145): `STG_N` is not 0, every staged position is
below `STG_N`, and no two are equal. -/
abbrev ValidStaging (s : State) : Prop :=
  s.stgN ≠ 0 ∧
  (∀ m, m < s.stgN.toNat → (s.stgOrderAt m).toNat < s.stgN.toNat) ∧
  (∀ m k, m < k → k < s.stgN.toNat → s.stgOrderAt m ≠ s.stgOrderAt k)

/-- `t` holds the commits of INIT (41_config_init R146): `N`, and `ORDER` and `ORIENT` below `N`, come from the staging
registers, every Frame Buffer byte is 0, the batch is empty, the mode is Configured; the staging registers and what
neither INIT nor sending writes are as in `s`. -/
abbrev initCommitted (s t : State) : Prop :=
  t.mode = .configured ∧ t.N = s.stgN ∧
  (∀ m, m < s.stgN.toNat → t.orderAt m = s.stgOrderAt m ∧ t.orientAt m = s.stgOrientAt m) ∧
  (∀ a, Memory.read a t.fb = 0x00) ∧ t.batch = [] ∧
  t = { s with
    mode := t.mode, result := t.result, N := t.N, order := t.order, orient := t.orient, fb := t.fb,
    batch := t.batch, busLog := t.busLog, chain := t.chain, answers := t.answers, draws := t.draws }

/-- From `s` to `t` nothing changed but RESULT and what sending on the transport port changes: the bus log, the answers
still to come, the chain and the model's own counter of draws. -/
abbrev onlySent (s t : State) : Prop :=
  t = { s with result := t.result, answers := t.answers, busLog := t.busLog, chain := t.chain, draws := t.draws }

/-- The command changed RESULT and nothing else. -/
abbrev onlyResult (s t : State) : Prop := t = { s with result := t.result }

end Sys2Proof.Machine

namespace Sys2Proof

/-- The instruction is a host command (30_encoding R80), not a group. -/
def Instr.isCommand : Instr → Bool
  | .cfgCount _ | .cfgModule _ _ _ | .init | .sendOne _ _ _ | .batchPut _ _ _ | .batchSend | .setIntensity _
  | .setTestMode _ | .setPixel _ _ _ _ | .getPixel _ _ _ | .clear | .flush | .map _ _ _ => true
  | .max7219Noop _ | .max7219Digit0 _ | .max7219Digit1 _ | .max7219Digit2 _ | .max7219Digit3 _ | .max7219Digit4 _
  | .max7219Digit5 _ | .max7219Digit6 _ | .max7219Digit7 _ | .max7219DecodeMode _ | .max7219Intensity _
  | .max7219ScanLimit _ | .max7219Shutdown _ | .max7219AddrD _ | .max7219AddrE _ | .max7219DisplayTest _ => false

/-- The commands that read MODE (10_state R21: "Every command other than CFG_COUNT, CFG_MODULE and INIT"). -/
def Instr.needsConfig (i : Instr) : Bool :=
  match i with
  | .cfgCount _ | .cfgModule _ _ _ | .init => false
  | _ => i.isCommand

/-- The commands that give a frame to `Transmit` when they succeed; the others "with no external effect"
(20_memory R61). -/
def Instr.transmits : Instr → Bool
  | .init | .sendOne _ _ _ | .batchSend | .setIntensity _ | .setTestMode _ | .flush => true
  | _ => false

end Sys2Proof
end

