-- ==== Sys2Proof/Certificates/Slice0/Obligations.lean ====
section
/-! DEFINITION. The statements for the provers. `log n` is notes/assumptions/n.md. Where the spec marks a rule
`[derived: …]` or the statement rests on a choice of the model, the docstring says so and the statement's basis is
'derived'. -/

open Sys2Proof Sys2Proof.Machine

/-! ### Reset and the invariant -/

/-- 70_reset_and_hazards R250: the table of reset values, element by element. -/
def Obligations.ResetValues : Prop :=
  State.reset.mode = .unconfigured ∧
  State.reset.result = 0x00000000 ∧
  State.reset.stgN = 0x00 ∧
  (∀ m, m < 256 → State.reset.stgOrderAt m = BitVec.ofNat 8 m ∧ State.reset.stgOrientAt m = 0x0) ∧
  State.reset.N = 0 ∧
  (∀ m, m < 256 → State.reset.orderAt m = 0 ∧ State.reset.orientAt m = 0) ∧
  (∀ a, Memory.read a State.reset.fb = 0x00) ∧
  State.reset.batch = []

/-- The reset state meets the invariant of 10_state R34 (with the canonical form of the memory, log 13). -/
def Obligations.ResetMeetsInvariant : Prop := State.reset.Inv

/-- 10_state R34 (marked `[derived]` there), R30, R32: every step, whatever input it takes, keeps the invariant: while
Configured, `N` is at least 1, the committed order is a permutation, the Frame Buffer lists no byte beyond `8·N`, every
batch entry has `p < N`; while Unconfigured the batch is empty; the batch has at most 256 entries; the memory keeps its
canonical form (log 13). -/
def Obligations.StepKeepsInvariant : Prop :=
  ∀ s t : State, s.Inv → step s = .next t → t.Inv

/-- From a state that meets the invariant no step stops: every error of 60_exceptions R221 is a next state, and the
model's one fault (log 12) is out of reach. -/
def Obligations.InvariantStepsNeverStop : Prop := ∀ s : State, s.Inv → SafeStep s

/-- Every command and every group answers, in every state: a next state, or, for SET_PIXEL and GET_PIXEL alone, the
fault of log 12; and no instruction is refused. -/
def Obligations.OnlyPixelCommandsCanFault : Prop :=
  ∀ (i : Instr) (s : State), (∃ t, exec i s = .next t) ∨
    (∃ a m r c, exec i s = .fault (.rowAddress a) ∧ 8 * s.count ≤ a ∧
      ((∃ on, i = .setPixel m r c on) ∨ i = .getPixel m r c))

/-! ### Encoding -/

/-- Decoding an encoded well-formed instruction gives it back, with every operand at every value its field admits
(30_encoding R80, R81, R87, R88). -/
def Obligations.DecodeOfEncode : Prop :=
  ∀ i : Instr, i.wellFormed = true → decode (encode i) = .ok i

/-- "Every legal word has exactly one meaning" (30_encoding R84): a word that decodes is the encoding of the instruction
it decodes to, and that instruction is well-formed. -/
def Obligations.EncodeOfDecode : Prop :=
  ∀ (w : Word) (i : Instr), decodeCommand w = .ok i → i.wellFormed = true ∧ encode i = .command w

/-- 30_encoding R84: the illegal words, by opcode and reserved bits. 60_exceptions R222: issuing an illegal word gives
`RESULT <- 0x50000000` and nothing else, in either mode (the host's index of issued words, 10_state R20, advances). -/
def Obligations.IllegalWordsAreTheReservedOnes : Prop :=
  ∀ w : Word,
    ((∃ e, decodeCommand w = .error e) ↔
      match (w.extractLsb' 28 4).toNat with
      | 0 | 14 | 15 => True
      | 3 | 6 | 11 | 12 => w.extractLsb' 0 28 ≠ 0
      | 1 | 7 => w.extractLsb' 8 20 ≠ 0
      | 8 => w.extractLsb' 1 27 ≠ 0
      | 2 => w.extractLsb' 24 4 ≠ 0 ∨ w.extractLsb' 4 4 ≠ 0
      | 4 | 5 => w.extractLsb' 8 8 ≠ 0
      | 9 => w.extractLsb' 25 3 ≠ 0
      | _ => w.extractLsb' 24 4 ≠ 0) ∧
    ∀ (e : Reject) (s : State), decodeCommand w = .error e →
      runCommand w s = .next { s with hpc := s.hpc + 1, result := 0x50000000 }

/-- 30_encoding R90: the encoded examples. -/
def Obligations.EncodedExamples : Prop :=
  decodeCommand 0x4A010005 = .ok (.sendOne 1 0xA 0x05) ∧ encode (.sendOne 1 0xA 0x05) = .command 0x4A010005 ∧
  decodeCommand 0x91020307 = .ok (.setPixel 2 3 7 true) ∧ encode (.setPixel 2 3 7 true) = .command 0x91020307 ∧
  decodeCommand 0xD0000007 = .ok (.map 0 0 7) ∧ encode (.map 0 0 7) = .command 0xD0000007 ∧
  decodeCommand 0x20000205 = .ok (.cfgModule 0 2 0x5) ∧ encode (.cfgModule 0 2 0x5) = .command 0x20000205 ∧
  decodeCommand 0x00000000 = .error (.reservedOpcode 0x0) ∧
  decodeCommand 0x40001200 = .error (.reservedBits 0x4)

/-- A group is an address byte and a value byte (30_encoding R87); a module ignores `A[7:4]` (40_protocol R105; log 15);
and the group the block sends for a decoded group instruction is that group with `A[7:4] = 0`. -/
def Obligations.GroupDecoding : Prop :=
  ∀ (x a : BitVec 4) (v : Byte),
    decodeGroup (x ++ a ++ v) = decodeGroup (0#4 ++ a ++ v) ∧
    encode (decodeGroup (0#4 ++ a ++ v)) = .group (0#4 ++ a ++ v)

/-! ### The step -/

/-- When the next input is a command word that decodes, the step is `exec` of that instruction, with the word taken from
the host port and the host index one further (10_state R20; log 8); when it does not decode, the step rejects it; when it
is a group for the module at `p`, the step is `exec` of the group's instruction at that module (log 7). -/
def Obligations.StepRunsDecodedInstruction : Prop :=
  (∀ (s : State) (w : Word) (rest : List Input) (i : Instr),
    s.pending = .command w :: rest → decodeCommand w = .ok i →
    step s = exec i { s with pending := rest, hpc := s.hpc + 1 }) ∧
  (∀ (s : State) (w : Word) (rest : List Input) (e : Reject),
    s.pending = .command w :: rest → decodeCommand w = .error e →
    step s = .next { s with pending := rest, hpc := s.hpc + 1, result := 0x50000000 }) ∧
  (∀ (s : State) (p : Fin 256) (w : GroupWord) (rest : List Input),
    s.pending = .group p w :: rest →
    step s = exec (decodeGroup w) { s with pending := rest, groupPos := p })

/-- With nothing pending the machine waits (log 8: the model's choice; 70_reset R271 sets no bound on the wait). -/
def Obligations.StepWaitsWithoutInput : Prop :=
  ∀ s : State, s.pending = [] → step s = .next s

/-- A reset between commands gives the block its reset values, sends nothing and leaves the chain as it was
(70_reset R250, R251, R252; log 10 for what else is kept). -/
def Obligations.ResetInputKeepsChain : Prop :=
  ∀ (s : State) (rest : List Input), s.pending = .reset :: rest →
    step s = .next { State.reset with
      busLog := s.busLog, chain := s.chain, hpc := s.hpc, pending := rest, answers := s.answers,
      groupPos := s.groupPos, draws := s.draws }

/-- `withFetchWord` places exactly the instruction of the word: the next step runs it on the same state, with the host
index one further for a command (log 9). -/
def Obligations.PlacedWordRunsNext : Prop :=
  ∀ (s : State) (nbits w : Nat) (i : Instr), decodeTableWord nbits w = some i →
    step (s.withFetchWord nbits w) = exec i (if nbits = 32 then { s with hpc := s.hpc + 1 } else s)

/-! ### Configuration -/

/-- 41_config_init R140. -/
def Obligations.CfgCountStages : Prop :=
  ∀ (n : Nat) (s : State),
    exec (.cfgCount n) s = .next { s with stgN := BitVec.ofNat 8 n, result := 0x00000000 } ∧
    encode (.cfgCount n) = .command (0x1#4 ++ 0#20 ++ BitVec.ofNat 8 n)

/-- 41_config_init R142: the two staging entries of `m` are written, every other entry and everything else is as before. -/
def Obligations.CfgModuleStages : Prop :=
  ∀ (m p : Nat) (o : BitVec 4) (s : State), m < 256 →
    (∃ t, exec (.cfgModule m p o) s = .next t ∧
      t.stgOrderAt m = BitVec.ofNat 8 p ∧ t.stgOrientAt m = o ∧
      (∀ k, k ≠ m → t.stgOrderAt k = s.stgOrderAt k ∧ t.stgOrientAt k = s.stgOrientAt k) ∧
      t = { s with stgOrder := t.stgOrder, stgOrient := t.stgOrient, result := 0x00000000 }) ∧
    encode (.cfgModule m p o) =
      .command (0x2#4 ++ 0#4 ++ BitVec.ofNat 8 m ++ BitVec.ofNat 8 p ++ 0#4 ++ o)

/-- 41_config_init R145: `ValidConfig()` is true exactly when `STG_N` is not 0, every staged position is below it and no
two are equal; and that is: the staged order is a permutation of `0..STG_N-1`. -/
def Obligations.ValidConfigMeansPermutation : Prop :=
  ∀ s : State, (s.validConfig = true ↔ ValidStaging s) ∧
    (ValidStaging s ↔ 1 ≤ s.stgN.toNat ∧ s.stagedOrder.Perm (List.range s.stgN.toNat))

/-- 41_config_init R146, all the cases of INIT. An invalid staging (R145) answers CONFIG_ERROR with data 0, changes nothing
else and sends nothing, in either mode. A valid one is committed whatever the transport answers; with every transaction
`Ok` the `13·N` frames of the initialization sequence (R147) are sent and the answer is OK with `13·N`; with transaction
`k` the first answered `Err` the answer is TRANSPORT_ERROR with `k`, the `k` frames before it and the failing one are in
the bus log, and nothing after it is sent. -/
def Obligations.InitEffect : Prop :=
  ∀ s : State,
    (¬ ValidStaging s → exec .init s = .next { s with result := 0x10000000 }) ∧
    (ValidStaging s → okFor (13 * s.stgN.toNat) s → ∃ t, exec .init s = .next t ∧ initCommitted s t ∧
      t.result = BitVec.ofNat 32 (13 * s.stgN.toNat) ∧
      t.busLog = s.busLog ++ okTransactions (initFrames s.stgN.toNat)) ∧
    (∀ k, ValidStaging s → k < 13 * s.stgN.toNat → failsAt k s →
      ∃ t f, exec .init s = .next t ∧ initCommitted s t ∧ (initFrames s.stgN.toNat)[k]? = some f ∧
        t.result = 0x30000000 + BitVec.ofNat 32 k ∧
        t.busLog = s.busLog ++ okTransactions ((initFrames s.stgN.toNat).take k) ++ [⟨f, .err⟩]) ∧
    encode .init = .command 0x30000000

/-- 41_config_init R148 (marked `[derived]` there; the chain is the reference observer, log 3): after an INIT that answers
OK every module of the chain has the registers of the initialization sequence, whatever they held before, and its row
registers agree with the Frame Buffer. -/
def Obligations.InitLeavesChainKnown : Prop :=
  ∀ s : State, ValidStaging s → okFor (13 * s.stgN.toNat) s → ∃ t, exec .init s = .next t ∧
    ∀ p, p < s.stgN.toNat →
      t.reg p 0xC = 0x01 ∧ t.reg p 0xF = 0x00 ∧ t.reg p 0x9 = 0x00 ∧ t.reg p 0xB = 0x07 ∧
      t.reg p 0xA = Config.initIntensity.setWidth 8 ∧
      ∀ pr : BitVec 3, t.reg p (rowRegister pr) = 0x00 ∧ t.reg p (rowRegister pr) = Memory.read (8 * p + pr.toNat) t.fb

/-- 70_reset R266 (marked `[derived]` there; the chain is the reference observer, log 3): in the middle of INIT, after the
first `13·p + 1` transactions, all `Ok`, module `p` is out of shutdown with its row registers as they were, and no
register of a farther module has changed. -/
def Obligations.InitReachesModulesInOrder : Prop :=
  ∀ (s : State) (p : Nat), p < s.stgN.toNat → okFor (13 * p + 1) s →
    ∀ t : State,
      t = (sendTxns s.stgN.toNat ((initSeq s.stgN.toNat).take (13 * p + 1)) (commitConfig s)).state →
      t.reg p 0xC = 0x01 ∧ (∀ b, b ≠ 0xC → t.reg p b = s.reg p b) ∧
      ∀ q b, p < q → q < s.stgN.toNat → t.reg q b = s.reg q b

/-! ### Register protocol -/

/-- 40_protocol R102: a frame has `2·n` bytes, and the group of position `p` is at bytes `2·(n-1-p)` (address, upper nibble
0) and `2·(n-1-p)+1` (value): the slot's group, or the no-op group where the slot map has none. -/
def Obligations.FramePlacesGroups : Prop :=
  ∀ (n : Nat) (S : SlotMap), (buildFrame n S).length = 2 * n ∧
    ∀ p, p < n →
      match S.at p with
      | some g => (buildFrame n S)[2 * (n - 1 - p)]? = some (0#4 ++ g.addr) ∧
          (buildFrame n S)[2 * (n - 1 - p) + 1]? = some g.value
      | none => (buildFrame n S)[2 * (n - 1 - p)]? = some 0x00 ∧ (buildFrame n S)[2 * (n - 1 - p) + 1]? = some 0x00

/-- 40_protocol R107: `SendTxns` sends in order and stops at the first `Err`; frames after the failing one are not sent. -/
def Obligations.SendTxnsStopsAtFirstError : Prop :=
  ∀ (n : Nat) (T : List SlotMap) (s : State),
    (okFor T.length s → (sendTxns n T s).answer = .ok ∧ (sendTxns n T s).count = T.length ∧
      (sendTxns n T s).state.busLog = s.busLog ++ okTransactions (T.map (buildFrame n))) ∧
    (∀ k S, T[k]? = some S → failsAt k s → (sendTxns n T s).answer = .err ∧ (sendTxns n T s).count = k ∧
      (sendTxns n T s).state.busLog =
        s.busLog ++ okTransactions ((T.take k).map (buildFrame n)) ++ [⟨buildFrame n S, .err⟩])

/-- 40_protocol R110: SEND_ONE, all its cases. -/
def Obligations.SendOneEffect : Prop :=
  ∀ (p : Nat) (a : BitVec 4) (v : Byte) (s : State),
    (s.mode = .unconfigured → exec (.sendOne p a v) s = .next { s with result := 0x40000000 }) ∧
    (s.mode = .configured → s.count ≤ p → exec (.sendOne p a v) s = .next { s with result := 0x20000000 }) ∧
    (s.mode = .configured → p < s.count → ∃ t, exec (.sendOne p a v) s = .next t ∧ onlySent s t ∧
      t.busLog = s.busLog ++ [⟨frameForOne s.count p a v, s.answerAt 0⟩] ∧
      t.result = match s.answerAt 0 with | .ok => 0x00000001 | .err => 0x30000000) ∧
    encode (.sendOne p a v) = .command (0x4#4 ++ a ++ BitVec.ofNat 8 p ++ 0#8 ++ v)

/-- 40_protocol R115: BATCH_PUT, all its cases. -/
def Obligations.BatchPutEffect : Prop :=
  ∀ (p : Nat) (a : BitVec 4) (v : Byte) (s : State),
    (s.mode = .unconfigured → exec (.batchPut p a v) s = .next { s with result := 0x40000000 }) ∧
    (s.mode = .configured → s.count ≤ p ∨ s.batch.length = 256 →
      exec (.batchPut p a v) s = .next { s with result := 0x20000000 }) ∧
    (s.mode = .configured → p < s.count → s.batch.length < 256 →
      exec (.batchPut p a v) s = .next { s with
        batch := s.batch ++ [⟨BitVec.ofNat 8 p, a, v⟩], result := BitVec.ofNat 32 (s.batch.length + 1) }) ∧
    encode (.batchPut p a v) = .command (0x5#4 ++ a ++ BitVec.ofNat 8 p ++ 0#8 ++ v)

/-- 40_protocol R120 (its properties 1 to 5 are marked `[derived]` there): a partition keeps every command once and in
order; no slot map names a module twice; no slot map is empty; every slot map after the first begins with a command to a
module that the one before it already holds (the cut is greedy); an empty list has no slot map; commands to distinct
modules make one; and there are at most as many slot maps as commands. -/
def Obligations.PartitionIsGreedyAndInOrder : Prop :=
  ∀ L : List RegisterCommand,
    (partition L).flatten = L.map RegisterCommand.slot ∧
    (∀ S ∈ partition L, (S.map Prod.fst).Nodup ∧ S ≠ []) ∧
    (∀ k S S', (partition L)[k]? = some S → (partition L)[k + 1]? = some S' →
      ∃ x ∈ S'.head?, x.1 ∈ S.map Prod.fst) ∧
    partition [] = [] ∧
    (L ≠ [] → (L.map RegisterCommand.p).Nodup → (partition L).length = 1) ∧
    (partition L).length ≤ L.length

/-- 40_protocol R121: BATCH_SEND, all its cases: the batch is emptied whatever the transport answers. The slot maps are
those of `Partition(BATCH)`, whose rule is stated by PartitionIsGreedyAndInOrder. -/
def Obligations.BatchSendEffect : Prop :=
  ∀ s : State,
    (s.mode = .unconfigured → exec .batchSend s = .next { s with result := 0x40000000 }) ∧
    (s.mode = .configured → okFor (partition s.batch).length s → ∃ t, exec .batchSend s = .next t ∧
      onlySent { s with batch := [] } t ∧ t.result = resultWord .ok (BitVec.ofNat 28 (partition s.batch).length) ∧
      t.busLog = s.busLog ++ okTransactions ((partition s.batch).map (buildFrame s.count))) ∧
    (∀ k S, s.mode = .configured → (partition s.batch)[k]? = some S → failsAt k s →
      ∃ t, exec .batchSend s = .next t ∧
        onlySent { s with batch := [] } t ∧ t.result = resultWord .transportError (BitVec.ofNat 28 k) ∧
        t.busLog = s.busLog ++ okTransactions (((partition s.batch).take k).map (buildFrame s.count)) ++
          [⟨buildFrame s.count S, .err⟩]) ∧
    encode .batchSend = .command 0x60000000

/-- 40_protocol R125: SET_INTENSITY, all its cases. -/
def Obligations.SetIntensityEffect : Prop :=
  ∀ (v : Nat) (s : State),
    (s.mode = .unconfigured → exec (.setIntensity v) s = .next { s with result := 0x40000000 }) ∧
    (s.mode = .configured → 15 < v → exec (.setIntensity v) s = .next { s with result := 0x20000000 }) ∧
    (s.mode = .configured → v ≤ 15 → ∃ t, exec (.setIntensity v) s = .next t ∧ onlySent s t ∧
      t.busLog = s.busLog ++ [⟨frameForEvery s.count 0xA (BitVec.ofNat 8 v), s.answerAt 0⟩] ∧
      t.result = match s.answerAt 0 with | .ok => 0x00000001 | .err => 0x30000000) ∧
    encode (.setIntensity v) = .command (0x7#4 ++ 0#20 ++ BitVec.ofNat 8 v)

/-- 40_protocol R130: SET_TEST_MODE, all its cases. -/
def Obligations.SetTestModeEffect : Prop :=
  ∀ (b : Bool) (s : State),
    (s.mode = .unconfigured → exec (.setTestMode b) s = .next { s with result := 0x40000000 }) ∧
    (s.mode = .configured → ∃ t, exec (.setTestMode b) s = .next t ∧ onlySent s t ∧
      t.busLog = s.busLog ++ [⟨frameForEvery s.count 0xF (if b then 0x01 else 0x00), s.answerAt 0⟩] ∧
      t.result = match s.answerAt 0 with | .ok => 0x00000001 | .err => 0x30000000) ∧
    encode (.setTestMode b) = .command (0x8#4 ++ 0#27 ++ BitVec.ofBool b)

/-- 40_protocol R109 (marked `[derived]` there), 20_memory R59: whatever any instruction adds to the bus log, in any state,
goes after what was there, and every added frame has exactly `2·N` bytes, each group's address byte with bits 7..4
zero. 20_memory R61, R63 (the chain is the reference observer, log 3): what a command leaves outside the block, the bus
log with the transport's answers, the answers still to come, the chain and the counter of draws (log 1, log 5), is what
`Transmit` of exactly the added frames, in order, leaves. -/
def Obligations.EverySentFrameIsWellShaped : Prop :=
  ∀ (i : Instr) (s t : State), exec i s = .next t → ∃ new, t.busLog = s.busLog ++ new ∧
    (∀ x ∈ new, x.frame.length = 2 * t.count ∧
      ∀ k, k < t.count → ∃ a : BitVec 4, x.frame[2 * k]? = some (0#4 ++ a)) ∧
    (i.isCommand = true → t.busLog = (replay s new).busLog ∧ t.answers = (replay s new).answers ∧
      t.chain = (replay s new).chain ∧ t.draws = (replay s new).draws)

/-! ### The chain (the reference observer, log 3) -/

/-- 40_protocol R100, R104, R105: `Transmit` puts the frame with the transport's next answer at the end of the bus log,
takes that answer off those to come (log 1), passes one draw (log 5), and changes nothing else but the chain. The chain
after a frame of `2·n` bytes: with `Ok`, the module at `p` takes the group at bytes `2·(n-1-p)` and `2·(n-1-p)+1`: address
nibble 0 does nothing, 0xD and 0xE leave its registers unknown (a new free value each, log 6), any other writes that
register and no other; `A[7:4]` is ignored. With `Err`, every register is unknown (a new free value each, log 5). -/
def Obligations.TransmitLatchesChain : Prop :=
  ∀ (s : State) (f : List Byte),
    ((transmit f s).busLog = s.busLog ++ [⟨f, s.answerAt 0⟩] ∧ (transmit f s).answers = s.answers.tail ∧
      (transmit f s).draws = s.draws + 1 ∧ (transmit f s).result = s.result ∧ onlySent s (transmit f s)) ∧
    ∀ (n p : Nat) (A V : Byte) (b : BitVec 4),
      f.length = 2 * n → p < n → n ≤ 255 → f[2 * (n - 1 - p)]? = some A → f[2 * (n - 1 - p) + 1]? = some V →
      (s.answerAt 0 = .ok → (transmit f s).reg p b =
        if A.extractLsb' 0 4 = 0x0 then s.reg p b
        else if A.extractLsb' 0 4 = 0xD ∨ A.extractLsb' 0 4 = 0xE then Config.chainUnknown s.draws p b.toNat
        else if b = A.extractLsb' 0 4 then V
        else s.reg p b) ∧
      (s.answerAt 0 = .err → (transmit f s).reg p b = Config.chainUnknown s.draws p b.toNat)

/-- 40_protocol R125, R130, R121 with R104, R105 (derived: the chain is the reference observer, log 3): what SET_INTENSITY,
SET_TEST_MODE and BATCH_SEND, all transactions answered `Ok`, leave in the registers of every module. SET_INTENSITY leaves
`v` in 0xA, SET_TEST_MODE leaves `b` in 0xF, for both values of `b`, and each leaves every other register as before.
BATCH_SEND leaves in each register the value of the last batch entry for it, and every other register as before, on a
module that no entry gives 0xD or 0xE (with one, EverySentFrameIsWellShaped and TransmitLatchesChain say what it
leaves). -/
def Obligations.ChainWideCommandsLatchRegisters : Prop :=
  ∀ s : State, s.mode = .configured →
    (∀ v, v ≤ 15 → s.answerAt 0 = .ok → ∃ t, exec (.setIntensity v) s = .next t ∧
      ∀ p a, p < s.count → t.reg p a = if a = 0xA then BitVec.ofNat 8 v else s.reg p a) ∧
    (∀ b : Bool, s.answerAt 0 = .ok → ∃ t, exec (.setTestMode b) s = .next t ∧
      ∀ p a, p < s.count → t.reg p a = if a = 0xF then (if b then 0x01 else 0x00) else s.reg p a) ∧
    (okFor (partition s.batch).length s → ∃ t, exec .batchSend s = .next t ∧
      ∀ p, p < s.count → (∀ e ∈ s.batch, e.p.toNat = p → e.a ≠ 0xD ∧ e.a ≠ 0xE) →
        ∀ a, t.reg p a = (lastWrite s.batch p a).getD (s.reg p a))

/-- 40_protocol R108 (marked `[derived]` there): after a SEND_ONE answered `Ok` no other module changes, and of the target
only register `a` can change, for every address that names a register or the No-Op. -/
def Obligations.SendOneDisturbsNoOtherModule : Prop :=
  ∀ (p : Nat) (a : BitVec 4) (v : Byte) (s : State), s.mode = .configured → p < s.count → s.answerAt 0 = .ok →
    ∃ t, exec (.sendOne p a v) s = .next t ∧
      (∀ q b, q < s.count → q ≠ p → t.reg q b = s.reg q b) ∧
      (a ≠ 0xD → a ≠ 0xE → ∀ b, t.reg p b = if b = a ∧ a ≠ 0x0 then v else s.reg p b)

/-- 40_protocol R105, 30_encoding R87: each group with a named register sets that register of the module that takes it to
the value byte, and changes no other register, no other module and nothing of the block (`draws` is the model's own
counter, log 5). -/
def Obligations.NamedGroupsSetTheirRegister : Prop :=
  ∀ (v : Byte) (s : State), ∀ x ∈
      [ (Instr.max7219Digit0 v, 0x1#4), (Instr.max7219Digit1 v, 0x2#4), (Instr.max7219Digit2 v, 0x3#4),
        (Instr.max7219Digit3 v, 0x4#4), (Instr.max7219Digit4 v, 0x5#4), (Instr.max7219Digit5 v, 0x6#4),
        (Instr.max7219Digit6 v, 0x7#4), (Instr.max7219Digit7 v, 0x8#4), (Instr.max7219DecodeMode v, 0x9#4),
        (Instr.max7219Intensity v, 0xA#4), (Instr.max7219ScanLimit v, 0xB#4), (Instr.max7219Shutdown v, 0xC#4),
        (Instr.max7219DisplayTest v, 0xF#4) ],
    ∃ t, exec x.1 s = .next t ∧ encode x.1 = .group (0#4 ++ x.2 ++ v) ∧
      t.reg s.groupPos.val x.2 = v ∧
      (∀ q b, (q ≠ s.groupPos.val ∨ b ≠ x.2) → t.reg q b = s.reg q b) ∧
      t = { s with chain := t.chain, draws := t.draws }

/-- 40_protocol R105: the No-Op group does nothing, and the groups to 0xD and 0xE leave every register of the module that
takes them unknown (a new free value each, log 6), no other module and nothing of the block changed. -/
def Obligations.NoOpAndUnnamedGroups : Prop :=
  ∀ (v : Byte) (s : State),
    exec (.max7219Noop v) s = .next s ∧
    ∀ i ∈ [Instr.max7219AddrD v, Instr.max7219AddrE v], ∃ t, exec i s = .next t ∧
      (∀ b, t.reg s.groupPos.val b = Config.chainUnknown s.draws s.groupPos.val b.toNat) ∧
      (∀ q b, q ≠ s.groupPos.val → t.reg q b = s.reg q b) ∧
      t = { s with chain := t.chain, draws := s.draws + 1 }

/-! ### Layout mapper and frame buffer -/

/-- 42_layout_framebuffer R171: the 16-entry table. -/
def Obligations.OrientationTable : Prop :=
  ∀ r c : BitVec 3,
    mapCell 0x0 r c = (r, c) ∧ mapCell 0x1 r c = (c, 7 - r) ∧ mapCell 0x2 r c = (7 - r, 7 - c) ∧
    mapCell 0x3 r c = (7 - c, r) ∧ mapCell 0x4 r c = (r, 7 - c) ∧ mapCell 0x5 r c = (c, r) ∧
    mapCell 0x6 r c = (7 - r, c) ∧ mapCell 0x7 r c = (7 - c, 7 - r) ∧ mapCell 0x8 r c = (7 - r, c) ∧
    mapCell 0x9 r c = (7 - c, 7 - r) ∧ mapCell 0xA r c = (r, 7 - c) ∧ mapCell 0xB r c = (c, r) ∧
    mapCell 0xC r c = (7 - r, 7 - c) ∧ mapCell 0xD r c = (7 - c, r) ∧ mapCell 0xE r c = (r, c) ∧
    mapCell 0xF r c = (c, 7 - r)

/-- 42_layout_framebuffer R172 (marked `[derived]` there): every code is a bijection of the 64 cells; `o` and `o XOR 0xE`
are the same transform and no other two codes are; rotations by 0° and 180° keep a logical row one physical row, and the
others make it one physical column. -/
def Obligations.OrientationProperties : Prop :=
  (∀ o : BitVec 4, Function.Bijective fun x : BitVec 3 × BitVec 3 => mapCell o x.1 x.2) ∧
  (∀ o o' : BitVec 4, (∀ r c, mapCell o r c = mapCell o' r c) ↔ (o' = o ∨ o' = o ^^^ 0xE)) ∧
  (∀ (o : BitVec 4) (r c c' : BitVec 3),
    if o.getLsbD 0 then (mapCell o r c).2 = (mapCell o r c').2 else (mapCell o r c).1 = (mapCell o r c').1)

/-- 42_layout_framebuffer R173 (its bijection is marked `[derived]` there): `LMap(m, r, c) = (ORDER[m], pr, pc)` with
`(pr, pc) = Map(ORIENT[m], r, c)`; with a committed permutation it takes the valid logical pixels one to one onto the
physical cells of the chain. -/
def Obligations.LayoutMapIsBijection : Prop :=
  ∀ s : State, s.Inv → s.mode = .configured →
    (∀ m r c, lmap s m r c = ⟨s.orderAt m, (mapCell (s.orientAt m) (BitVec.ofNat 3 r) (BitVec.ofNat 3 c)).1,
      (mapCell (s.orientAt m) (BitVec.ofNat 3 r) (BitVec.ofNat 3 c)).2⟩) ∧
    (∀ m r c, validPixel s m r c → (lmap s m r c).p.toNat < s.count) ∧
    (∀ m r c m' r' c', validPixel s m r c → validPixel s m' r' c' → lmap s m r c = lmap s m' r' c' →
      m = m' ∧ r = r' ∧ c = c') ∧
    (∀ q : PhysPixel, q.p.toNat < s.count → ∃ m r c, validPixel s m r c ∧ lmap s m r c = q)

/-- 42_layout_framebuffer R175: the checks that MAP, SET_PIXEL and GET_PIXEL share; each changes RESULT only. -/
def Obligations.PixelCommandsCheckModeAndRange : Prop :=
  ∀ (m r c : Nat) (on : Bool) (s : State), ∀ i ∈ [Instr.map m r c, Instr.setPixel m r c on, Instr.getPixel m r c],
    (s.mode = .unconfigured → exec i s = .next { s with result := 0x40000000 }) ∧
    (s.mode = .configured → (s.count ≤ m ∨ 8 ≤ r ∨ 8 ≤ c) → exec i s = .next { s with result := 0x20000000 })

/-- 42_layout_framebuffer R174: MAP, all its cases: after the check of R175 it answers `data[15:8] = p`, `data[5:3] = pr`,
`data[2:0] = pc` of `LMap(m, r, c)` and changes RESULT only. -/
def Obligations.MapReturnsPhysicalCell : Prop :=
  ∀ (m r c : Nat) (s : State),
    (s.mode = .unconfigured → exec (.map m r c) s = .next { s with result := 0x40000000 }) ∧
    (s.mode = .configured → ¬ validPixel s m r c → exec (.map m r c) s = .next { s with result := 0x20000000 }) ∧
    (s.mode = .configured → validPixel s m r c → exec (.map m r c) s = .next { s with
      result :=
        0#16 ++ (s.orderAt m) ++ 0#2 ++ (mapCell (s.orientAt m) (BitVec.ofNat 3 r) (BitVec.ofNat 3 c)).1 ++
          (mapCell (s.orientAt m) (BitVec.ofNat 3 r) (BitVec.ofNat 3 c)).2 }) ∧
    encode (.map m r c) = .command (0xD#4 ++ 0#4 ++ BitVec.ofNat 8 m ++ BitVec.ofNat 8 r ++ BitVec.ofNat 8 c)

/-- 42_layout_framebuffer R176: SET_PIXEL, all its cases: after the check of R175 it writes bit `pc` of the row byte
`8·p + pr`, with `p = ORDER[m]` and `(pr, pc) = Map(ORIENT[m], r, c)` (R173), and answers OK with 0; the other bits of
that byte, every other byte and everything else are as before. The premise on `ORDER` and on the memory's form is part
of the invariant (StepKeepsInvariant). -/
def Obligations.SetPixelWritesOneCell : Prop :=
  ∀ (m r c : Nat) (on : Bool) (s : State),
    (s.mode = .unconfigured → exec (.setPixel m r c on) s = .next { s with result := 0x40000000 }) ∧
    (s.mode = .configured → ¬ validPixel s m r c →
      exec (.setPixel m r c on) s = .next { s with result := 0x20000000 }) ∧
    (∀ pr pc : BitVec 3, s.mode = .configured → validPixel s m r c → (s.orderAt m).toNat < s.count → Memory.wf s.fb →
      mapCell (s.orientAt m) (BitVec.ofNat 3 r) (BitVec.ofNat 3 c) = (pr, pc) →
      ∃ t, exec (.setPixel m r c on) s = .next t ∧
        (∀ j, j < 8 → (Memory.read (8 * (s.orderAt m).toNat + pr.toNat) t.fb).getLsbD j =
          if j = pc.toNat then on else (Memory.read (8 * (s.orderAt m).toNat + pr.toNat) s.fb).getLsbD j) ∧
        (∀ a, a ≠ 8 * (s.orderAt m).toNat + pr.toNat → Memory.read a t.fb = Memory.read a s.fb) ∧
        t = { s with fb := t.fb, result := 0x00000000 }) ∧
    encode (.setPixel m r c on) =
      .command (0x9#4 ++ 0#3 ++ BitVec.ofBool on ++ BitVec.ofNat 8 m ++ BitVec.ofNat 8 r ++ BitVec.ofNat 8 c)

/-- 42_layout_framebuffer R177: GET_PIXEL, all its cases: after the check of R175 it answers bit `pc` of the row byte
`8·p + pr`, with `p = ORDER[m]` and `(pr, pc) = Map(ORIENT[m], r, c)` (R173), and changes RESULT only. The premise on
`ORDER` is part of the invariant (StepKeepsInvariant). -/
def Obligations.GetPixelReadsOneCell : Prop :=
  ∀ (m r c : Nat) (s : State),
    (s.mode = .unconfigured → exec (.getPixel m r c) s = .next { s with result := 0x40000000 }) ∧
    (s.mode = .configured → ¬ validPixel s m r c →
      exec (.getPixel m r c) s = .next { s with result := 0x20000000 }) ∧
    (∀ pr pc : BitVec 3, s.mode = .configured → validPixel s m r c → (s.orderAt m).toNat < s.count →
      mapCell (s.orientAt m) (BitVec.ofNat 3 r) (BitVec.ofNat 3 c) = (pr, pc) →
      exec (.getPixel m r c) s = .next { s with result :=
        if (Memory.read (8 * (s.orderAt m).toNat + pr.toNat) s.fb).getLsbD pc.toNat then 0x00000001
        else 0x00000000 }) ∧
    encode (.getPixel m r c) = .command (0xA#4 ++ 0#4 ++ BitVec.ofNat 8 m ++ BitVec.ofNat 8 r ++ BitVec.ofNat 8 c)

/-- A pixel command whose row address `8·p + pr` does not exist (20_memory R51), which no run reaches, stops with the fault
that names the address (log 12: the model's choice). -/
def Obligations.PixelCommandsFaultOutsideFrameBuffer : Prop :=
  ∀ (m r c : Nat) (on : Bool) (s : State) (pr pc : BitVec 3),
    s.mode = .configured → validPixel s m r c → s.count ≤ (s.orderAt m).toNat →
    mapCell (s.orientAt m) (BitVec.ofNat 3 r) (BitVec.ofNat 3 c) = (pr, pc) →
    exec (.setPixel m r c on) s = .fault (.rowAddress (8 * (s.orderAt m).toNat + pr.toNat)) ∧
    exec (.getPixel m r c) s = .fault (.rowAddress (8 * (s.orderAt m).toNat + pr.toNat))

/-- 42_layout_framebuffer R178: CLEAR, all its cases. The premise on the memory's form is part of the invariant
(StepKeepsInvariant). -/
def Obligations.ClearDarkensFrameBuffer : Prop :=
  ∀ s : State,
    (s.mode = .unconfigured → exec .clear s = .next { s with result := 0x40000000 }) ∧
    (s.mode = .configured → Memory.wf s.fb → ∃ t, exec .clear s = .next t ∧
      (∀ a, Memory.read a t.fb = if a < 8 * s.count then 0x00 else Memory.read a s.fb) ∧
      t = { s with fb := t.fb, result := 0x00000000 }) ∧
    encode .clear = .command 0xB0000000

/-- 42_layout_framebuffer R179: FLUSH, all its cases: one frame per physical row in ascending order, the Frame Buffer
unchanged; at the first `Err` it stops with the number of rows sent. -/
def Obligations.FlushSendsEveryRow : Prop :=
  ∀ s : State,
    (s.mode = .unconfigured → exec .flush s = .next { s with result := 0x40000000 }) ∧
    (s.mode = .configured → okFor 8 s → ∃ t, exec .flush s = .next t ∧ onlySent s t ∧ t.result = 0x00000008 ∧
      t.busLog = s.busLog ++ okTransactions ((List.range 8).map (frameForRow s))) ∧
    (∀ k, s.mode = .configured → k < 8 → failsAt k s → ∃ t, exec .flush s = .next t ∧ onlySent s t ∧
      t.result = 0x30000000 + BitVec.ofNat 32 k ∧
      t.busLog = s.busLog ++ okTransactions ((List.range k).map (frameForRow s)) ++ [⟨frameForRow s k, .err⟩]) ∧
    encode .flush = .command 0xC0000000

/-- 42_layout_framebuffer R182 (marked `[derived]` there): a FLUSH that answers OK has added exactly 8 transactions to the
bus log, each of exactly `N` groups. -/
def Obligations.FlushCounts : Prop :=
  ∀ s t : State, s.mode = .configured → exec .flush s = .next t → statusField t.result = 0 →
    ∃ new, t.busLog = s.busLog ++ new ∧ new.length = 8 ∧ ∀ x ∈ new, x.frame.length = 2 * s.count ∧ x.answer = .ok

/-- 70_reset R263 (its first two sentences; marked `[derived]` there; the chain is the reference observer, log 3): after
the first `k` transactions of a FLUSH, all `Ok`, the row registers of rows below `k` are new and those of the other rows
are as they were, on every module at once. -/
def Obligations.FlushUpdatesOneRowAtATime : Prop :=
  ∀ (s : State) (k : Nat), k ≤ 8 → okFor k s →
    ∀ t : State, t = (sendTxns s.count ((List.range k).map (rowSlots s)) s).state →
      ∀ p, p < s.count → ∀ pr : BitVec 3, t.reg p (rowRegister pr) =
        if pr.toNat < k then Memory.read (8 * p + pr.toNat) s.fb else s.reg p (rowRegister pr)

/-- 42_layout_framebuffer R183 (marked `[derived]` there; the chain is the reference observer, log 3): after a FLUSH that
answers OK every row register of every module holds the Frame Buffer's row byte, and a module in normal operation shows
exactly its Frame Buffer cells. -/
def Obligations.FlushShowsFrameBuffer : Prop :=
  ∀ s : State, s.mode = .configured → okFor 8 s → ∃ t, exec .flush s = .next t ∧
    ∀ p, p < s.count → ∀ pr : BitVec 3,
      t.reg p (rowRegister pr) = Memory.read (8 * p + pr.toNat) t.fb ∧
      (s.reg p 0x9 = 0x00 → s.reg p 0xF = 0x00 → s.reg p 0xC = 0x01 → s.reg p 0xB = 0x07 →
        ∀ pc : BitVec 3, ledLit t p pr pc = (Memory.read (8 * p + pr.toNat) t.fb).getLsbD pc.toNat)

/-- 70_reset R267 with 40_protocol R106, R130 (marked `[derived]` there; log 3): after a SET_TEST_MODE 1 answered OK every
LED of every module in no-decode mode is lit, whatever the row registers hold, and the row registers and the Frame
Buffer are as before. -/
def Obligations.TestModeLightsEveryLed : Prop :=
  ∀ s : State, s.mode = .configured → s.answerAt 0 = .ok → ∃ t, exec (.setTestMode true) s = .next t ∧ t.fb = s.fb ∧
    ∀ p, p < s.count →
      (∀ pr : BitVec 3, t.reg p (rowRegister pr) = s.reg p (rowRegister pr)) ∧
      (s.reg p 0x9 = 0x00 → ∀ pr pc, ledLit t p pr pc = true)

/-- 42_layout_framebuffer R180 (marked `[derived]` there): SET_PIXEL then GET_PIXEL of the same pixel returns the written
value, for every orientation and every chain order. -/
def Obligations.PixelRoundTrip : Prop :=
  ∀ (m r c : Nat) (on : Bool) (s : State), s.Inv → s.mode = .configured → validPixel s m r c →
    ∃ t u, exec (.setPixel m r c on) s = .next t ∧ exec (.getPixel m r c) t = .next u ∧
      u.result = if on then 0x00000001 else 0x00000000

/-- 42_layout_framebuffer R181 (marked `[derived]` there): SET_PIXEL of one pixel does not change what GET_PIXEL of another
returns. -/
def Obligations.PixelsAreIndependent : Prop :=
  ∀ (m r c m' r' c' : Nat) (on : Bool) (s : State), s.Inv → s.mode = .configured → validPixel s m r c →
    validPixel s m' r' c' → (m, r, c) ≠ (m', r', c') →
    ∃ t u v, exec (.setPixel m r c on) s = .next t ∧ exec (.getPixel m' r' c') t = .next u ∧
      exec (.getPixel m' r' c') s = .next v ∧ u.result = v.result

/-! ### Whole-machine rules -/

/-- 10_state R21: the reset value of MODE is Unconfigured; while it is, every command but CFG_COUNT, CFG_MODULE and INIT
answers NOT_INITIALIZED; no instruction but an INIT of a valid staging changes MODE, which sets it to Configured; and
no step but a reset sets it back. -/
def Obligations.ModeGatesCommands : Prop :=
  State.reset.mode = .unconfigured ∧
  (∀ (i : Instr) (s : State), i.needsConfig = true → s.mode = .unconfigured →
    exec i s = .next { s with result := 0x40000000 }) ∧
  (∀ (i : Instr) (s t : State), exec i s = .next t →
    t.mode = s.mode ∨ (i = .init ∧ ValidStaging s ∧ t.mode = .configured)) ∧
  (∀ s t : State, step s = .next t → s.mode = .configured → t.mode = .unconfigured → s.pending.head? = some .reset)

/-- 10_state R33, the column 'written by': no instruction writes a state element that the table does not give it. -/
def Obligations.OnlyTheNamedCommandsWrite : Prop :=
  ∀ (i : Instr) (s t : State), exec i s = .next t →
    (i ≠ .init → t.mode = s.mode ∧ t.N = s.N ∧ t.order = s.order ∧ t.orient = s.orient) ∧
    ((∀ n, i ≠ .cfgCount n) → t.stgN = s.stgN) ∧
    ((∀ m p o, i ≠ .cfgModule m p o) → t.stgOrder = s.stgOrder ∧ t.stgOrient = s.stgOrient) ∧
    ((∀ m r c on, i ≠ .setPixel m r c on) → i ≠ .clear → i ≠ .init → t.fb = s.fb) ∧
    ((∀ p a v, i ≠ .batchPut p a v) → i ≠ .batchSend → i ≠ .init → t.batch = s.batch) ∧
    (i.isCommand = false → t.result = s.result) ∧
    t.pending = s.pending ∧ t.hpc = s.hpc ∧ t.groupPos = s.groupPos

/-- 20_memory R61 (marked `[derived]` there): SET_PIXEL, GET_PIXEL, CLEAR, MAP, CFG_COUNT, CFG_MODULE and BATCH_PUT have no
effect outside the block, and GET_PIXEL and MAP change RESULT only. -/
def Obligations.OnlyTransmittingCommandsReachTheChain : Prop :=
  ∀ (i : Instr) (s t : State), i.isCommand = true → i.transmits = false → exec i s = .next t →
    t.busLog = s.busLog ∧ t.chain = s.chain ∧ t.answers = s.answers ∧
    ((∃ m r c, i = .getPixel m r c ∨ i = .map m r c) → onlyResult s t)

/-- 20_memory R61 (marked `[derived]` there; the chain is the reference observer, log 3): repeating FLUSH, SET_INTENSITY,
SET_TEST_MODE or SEND_ONE, both answered OK, with no command in between leaves every register of every module as the first one left it.
SEND_ONE to 0xD or 0xE is not among them: each leaves the registers of the module unknown anew (U3). -/
def Obligations.RepeatedCommandLeavesTheChain : Prop :=
  ∀ (i : Instr) (s t u : State),
    (i = .flush ∨ (∃ v, i = .setIntensity v) ∨ (∃ b, i = .setTestMode b) ∨
      (∃ p a v, i = .sendOne p a v ∧ a ≠ 0xD ∧ a ≠ 0xE)) →
    exec i s = .next t → statusField t.result = 0 → exec i t = .next u → statusField u.result = 0 →
    ∀ p b, p < t.count → u.reg p b = t.reg p b

/-- 60_exceptions R223: what stands after an error. With a status other than OK and TRANSPORT_ERROR the command changed
RESULT only. With TRANSPORT_ERROR the transactions before the failing one are in the bus log as `Ok` and the failing one
as `Err`, the block's state is the new configuration for INIT, an emptied batch for BATCH_SEND, and unchanged but for
RESULT for every other command; the chain is unknown: every register holds the free value of the failing transaction's
own draw, the last one passed (log 5). -/
def Obligations.WhatStandsAfterAnError : Prop :=
  ∀ (i : Instr) (s t : State), i.isCommand = true → exec i s = .next t →
    (statusField t.result ≠ 0 → statusField t.result ≠ 3 → onlyResult s t) ∧
    (statusField t.result = 3 →
      (∃ fs f, t.busLog = s.busLog ++ okTransactions fs ++ [⟨f, .err⟩] ∧ t.draws = s.draws + fs.length + 1 ∧
        ∀ p b, p < 256 → t.reg p b = Config.chainUnknown (s.draws + fs.length) p b.toNat) ∧
      (if i = .init then t.N = s.stgN ∧ t.mode = .configured ∧ t.batch = [] ∧ (∀ a, Memory.read a t.fb = 0x00) ∧
          (∀ m, m < s.stgN.toNat → t.orderAt m = s.stgOrderAt m ∧ t.orientAt m = s.stgOrientAt m)
        else if i = .batchSend then onlySent { s with batch := [] } t
        else onlySent s t))

/-- 30_encoding R85: every command answers one of the statuses 0 to 5, and only INIT answers CONFIG_ERROR
(60_exceptions R221). -/
def Obligations.StatusIsOneOfSix : Prop :=
  ∀ (i : Instr) (s t : State), i.isCommand = true → exec i s = .next t →
    (statusField t.result).toNat ≤ 5 ∧ (statusField t.result = 1 → i = .init) ∧
    (statusField t.result = 3 → i.transmits = true) ∧ (statusField t.result = 5 → False)

/-- 10_state R23, 60_exceptions R224: no command reads RESULT; errors are not sticky: with any other RESULT before it a
command answers exactly the same. -/
def Obligations.ResultNeverInfluencesACommand : Prop :=
  ∀ (i : Instr) (s : State) (x : Word), i.isCommand = true → exec i { s with result := x } = exec i s

/-- 10_state R36: "The block never reads the chain": whatever the chain holds, a command leaves the same block, sends the
same frames and answers the same result. -/
def Obligations.BlockNeverReadsTheChain : Prop :=
  ∀ (i : Instr) (s t : State) (regs : Vector ModuleRegs 256), i.isCommand = true → exec i s = .next t →
    ∃ regs', exec i { s with chain := regs } = .next { t with chain := regs' }

/-! ### The assembler -/

/-- 30_encoding R88 (blanks: log 19). The commands that a line assembles to have operands that fit their fields, and their
words decode to them. Each mnemonic with operands that fit gives the one command with each operand in its field, and none
where an operand is too wide. Each pseudo-instruction (30_encoding R89) gives its expansion, stated by
PseudoInstructionsExpand, and none where a command of it has an operand too wide. A line of a mnemonic and comma-separated numbers, each decimal or hexadecimal with `0x`,
with or without a comment after `;`, is that mnemonic with those operands. -/
def Obligations.AssembledLinesDecode : Prop :=
  ∀ N : Nat,
    (∀ (line : String) (is : List Instr), assembleLine N line = some is →
      ∀ i ∈ is, i.wellFormed = true ∧ i.isCommand = true ∧ decode (encode i) = .ok i) ∧
    ((∀ n, assembleOperation N "cfg_count" [n] = if n < 256 then some [.cfgCount n] else none) ∧
      (∀ m p o, assembleOperation N "cfg_module" [m, p, o] =
        if m < 256 ∧ p < 256 ∧ o < 16 then some [.cfgModule m p (BitVec.ofNat 4 o)] else none) ∧
      assembleOperation N "init" [] = some [.init] ∧
      (∀ p a v, assembleOperation N "send_one" [p, a, v] =
        if p < 256 ∧ a < 16 ∧ v < 256 then some [.sendOne p (BitVec.ofNat 4 a) (BitVec.ofNat 8 v)] else none) ∧
      (∀ p a v, assembleOperation N "batch_put" [p, a, v] =
        if p < 256 ∧ a < 16 ∧ v < 256 then some [.batchPut p (BitVec.ofNat 4 a) (BitVec.ofNat 8 v)] else none) ∧
      assembleOperation N "batch_send" [] = some [.batchSend] ∧
      (∀ v, assembleOperation N "set_intensity" [v] = if v < 256 then some [.setIntensity v] else none) ∧
      (∀ b, assembleOperation N "set_test_mode" [b] = if b < 2 then some [.setTestMode (b = 1)] else none) ∧
      (∀ m r c on, assembleOperation N "set_pixel" [m, r, c, on] =
        if m < 256 ∧ r < 256 ∧ c < 256 ∧ on < 2 then some [.setPixel m r c (on = 1)] else none) ∧
      (∀ m r c, assembleOperation N "get_pixel" [m, r, c] =
        if m < 256 ∧ r < 256 ∧ c < 256 then some [.getPixel m r c] else none) ∧
      assembleOperation N "clear" [] = some [.clear] ∧
      assembleOperation N "flush" [] = some [.flush] ∧
      (∀ m r c, assembleOperation N "map" [m, r, c] =
        if m < 256 ∧ r < 256 ∧ c < 256 then some [.map m r c] else none)) ∧
    ((∀ n, assembleOperation N "cfg_linear" [n] = fittingExpansion N (.cfgLinear n)) ∧
      (∀ p r v, assembleOperation N "write_row" [p, r, v] =
        if v < 256 then fittingExpansion N (.writeRow p r (BitVec.ofNat 8 v)) else none) ∧
      assembleOperation N "noop_frame" [] = fittingExpansion N .noopFrame ∧
      (∀ p x, assembleOperation N "shutdown" [p, x] = fittingExpansion N (.shutdown p x)) ∧
      (∀ n a v, assembleOperation N "broadcast" [n, a, v] =
        if a < 16 ∧ v < 256 then fittingExpansion N (.broadcast n (BitVec.ofNat 4 a) (BitVec.ofNat 8 v)) else none) ∧
      (∀ m r c, assembleOperation N "pixel_off" [m, r, c] = fittingExpansion N (.pixelOff m r c))) ∧
    (∀ (mnemonic comment : List Char) (ops : List (Bool × Nat)),
      mnemonic ≠ [] → (∀ x ∈ mnemonic, isBlank x = false ∧ x ≠ ';') →
      ∀ text : List Char,
        text = mnemonic ++ [' '] ++ List.intercalate [',', ' '] (ops.map fun x => numberText x.1 x.2) →
        assembleLine N (String.ofList text) = assembleOperation N (String.ofList mnemonic) (ops.map Prod.snd) ∧
        assembleLine N (String.ofList (text ++ [';'] ++ comment)) =
          assembleOperation N (String.ofList mnemonic) (ops.map Prod.snd))

/-- 30_encoding R89: the pseudo-instructions, each where its condition holds; where it does not, none: the model's choice
(log 19), since R89 lists the conditions and does not say what happens without them. -/
def Obligations.PseudoInstructionsExpand : Prop :=
  ∀ N : Nat,
    (∀ n, (1 ≤ n ∧ n ≤ 255 → expand N (.cfgLinear n) =
        some ([.cfgCount n] ++ (List.range n).map fun k => .cfgModule k k 0)) ∧
      (¬ (1 ≤ n ∧ n ≤ 255) → expand N (.cfgLinear n) = none)) ∧
    (∀ p r v, (r < 8 → expand N (.writeRow p r v) = some [.sendOne p (BitVec.ofNat 4 (r + 1)) v]) ∧
      (8 ≤ r → expand N (.writeRow p r v) = none)) ∧
    expand N .noopFrame = some [.sendOne 0 0x0 0x00] ∧
    (∀ p, expand N (.shutdown p 1) = some [.sendOne p 0xC 0x00] ∧
      expand N (.shutdown p 0) = some [.sendOne p 0xC 0x01] ∧ ∀ s, 1 < s → expand N (.shutdown p s) = none) ∧
    (∀ n a v, (n = N → expand N (.broadcast n a v) =
        some ((List.range n).map (fun k => .batchPut k a v) ++ [.batchSend])) ∧
      (n ≠ N → expand N (.broadcast n a v) = none)) ∧
    (∀ m r c, expand N (.pixelOff m r c) = some [.setPixel m r c false])
end

