-- ==== Sys2Proof/Laws/Assembler.lean ====
section
/-! SUPPORT. The laws of the assembler (30_encoding R88, log 19): a number's text reads back as the number, and a line of a
mnemonic and comma-separated numbers is that mnemonic with those operands. -/

namespace Sys2Proof.Machine

/-! ### Numbers -/

theorem digitValue_digitChar {b d : Nat} (hb : b = 10 ∨ b = 16) (h : d < b) : digitValue b d.digitChar = some d := by
  rcases hb with rfl | rfl <;> (revert d; decide)

/-- The characters of a number are digits of its base. -/
theorem mem_toDigits {b : Nat} (hb : 1 < b) (n : Nat) : ∀ x ∈ Nat.toDigits b n, ∃ d, d < b ∧ x = d.digitChar := by
  induction n using Nat.strongRecOn with
  | _ n ih =>
    rw [Nat.toDigits_eq_if hb]
    split
    · next h => intro x hx; exact ⟨n, h, List.mem_singleton.mp hx⟩
    · intro x hx
      rcases List.mem_append.mp hx with hx | hx
      · exact ih _ (Nat.div_lt_self (by omega) hb) x hx
      · exact ⟨n % b, Nat.mod_lt _ (by omega), List.mem_singleton.mp hx⟩

theorem foldlM_toDigits {b : Nat} (hb : b = 10 ∨ b = 16) (n : Nat) :
    (Nat.toDigits b n).foldlM (fun n x => (digitValue b x).map fun d => b * n + d) 0 = some n := by
  have h1 : 1 < b := by omega
  induction n using Nat.strongRecOn with
  | _ n ih =>
    rw [Nat.toDigits_eq_if h1]
    split
    · next h => simp [digitValue_digitChar hb h]
    · rw [List.foldlM_append, ih _ (Nat.div_lt_self (by omega) h1)]
      simp [digitValue_digitChar hb (Nat.mod_lt n (show b > 0 by omega)), Nat.div_add_mod]

theorem digitsValue_toDigits {b : Nat} (hb : b = 10 ∨ b = 16) (n : Nat) : digitsValue b (Nat.toDigits b n) = some n := by
  unfold digitsValue
  split
  · next h => exact absurd h Nat.toDigits_ne_nil
  · exact foldlM_toDigits hb n

/-- A number's text reads back as the number (30_encoding R88). -/
theorem parseNumber_numberText (hex : Bool) (n : Nat) : parseNumber (numberText hex n) = some n := by
  cases hex
  · simp only [numberText, Bool.false_eq_true, if_false]
    unfold parseNumber
    split
    · next l h =>
      obtain ⟨d, hd, e⟩ := mem_toDigits (b := 10) (by omega) n 'x' (by rw [h]; simp)
      clear h
      exact absurd e (by revert d; decide)
    · exact digitsValue_toDigits (.inl rfl) n
  · exact digitsValue_toDigits (.inr rfl) n

/-! ### Text -/

/-- A part of a line without blanks, commas and comments. -/
def Plain (l : List Char) : Prop := ∀ x ∈ l, isBlank x = false ∧ x ≠ ',' ∧ x ≠ ';'

theorem numberText_plain (hex : Bool) (n : Nat) : Plain (numberText hex n) := by
  have key : ∀ b, b = 10 ∨ b = 16 → Plain (Nat.toDigits b n) := by
    intro b hb x hx
    obtain ⟨d, hd, rfl⟩ := mem_toDigits (by omega) n x hx
    have hd : d < 16 := by omega
    exact (by decide : ∀ d < 16, isBlank d.digitChar = false ∧ d.digitChar ≠ ',' ∧ d.digitChar ≠ ';') d hd
  cases hex
  · exact key 10 (.inl rfl)
  · intro x hx
    rcases List.mem_cons.mp hx with rfl | hx
    · decide
    rcases List.mem_cons.mp hx with rfl | hx
    · decide
    exact key 16 (.inr rfl) x hx

theorem numberText_ne_nil (hex : Bool) (n : Nat) : numberText hex n ≠ [] := by
  cases hex
  · exact Nat.toDigits_ne_nil
  · exact List.cons_ne_nil _ _

theorem trimBlanks_cons_blank {x : Char} (h : isBlank x = true) (l : List Char) : trimBlanks (x :: l) = trimBlanks l := by
  rw [trimBlanks, List.dropWhile_cons, if_pos h]; rfl

theorem trimBlanks_append_blank {x : Char} (h : isBlank x = true) (l : List Char) (hl : l.dropWhile isBlank ≠ []) :
    trimBlanks (l ++ [x]) = trimBlanks l := by
  rw [trimBlanks, List.dropWhile_append]
  simp [hl, h, trimBlanks]

/-- Text that neither begins nor ends with a blank is trimmed already. -/
theorem trimBlanks_eq_self {l : List Char} (hh : ∀ x ∈ l.head?, isBlank x = false)
    (ht : ∀ x ∈ l.getLast?, isBlank x = false) : trimBlanks l = l := by
  have key : ∀ l : List Char, (∀ x ∈ l.head?, isBlank x = false) → l.dropWhile isBlank = l := by
    intro l h
    cases l with
    | nil => rfl
    | cons x l => rw [List.dropWhile_cons, if_neg (by simp [h x rfl])]
  rw [trimBlanks, key l hh, key l.reverse (by simpa using ht), List.reverse_reverse]

theorem Plain.trimBlanks {l : List Char} (h : Plain l) : trimBlanks l = l :=
  trimBlanks_eq_self (fun x hx => (h x (List.mem_of_head? hx)).1) fun x hx => (h x (List.mem_of_getLast? hx)).1

theorem splitCommas_ne_nil (l : List Char) : splitCommas l ≠ [] := by
  cases l with
  | nil => simp [splitCommas]
  | cons x l => rw [splitCommas]; split <;> (try split) <;> simp

theorem splitCommas_plain {l : List Char} (h : ∀ x ∈ l, x ≠ ',') : splitCommas l = [l] := by
  induction l with
  | nil => rfl
  | cons x l ih =>
    rw [splitCommas, ih fun y hy => h y (by simp [hy])]
    simp [h x]

theorem splitCommas_append_comma {l : List Char} (h : ∀ x ∈ l, x ≠ ',') (m : List Char) :
    splitCommas (l ++ ',' :: m) = l :: splitCommas m := by
  induction l with
  | nil =>
    rw [List.nil_append, splitCommas]
    split
    · next e => exact absurd e (splitCommas_ne_nil m)
    · next e => simp [e]
  | cons x l ih =>
    rw [List.cons_append, splitCommas, ih fun y hy => h y (by simp [hy])]
    simp [h x]

/-- The text of comma-separated numbers. -/
abbrev operandText (ops : List (Bool × Nat)) : List Char :=
  List.intercalate [',', ' '] (ops.map fun x => numberText x.1 x.2)

theorem operandText_cons (x y : Bool × Nat) (ops : List (Bool × Nat)) :
    operandText (x :: y :: ops) = numberText x.1 x.2 ++ ',' :: ' ' :: operandText (y :: ops) := by
  simp [operandText, List.intercalate]

theorem mem_operandText (ops : List (Bool × Nat)) : ∀ x ∈ operandText ops, x ≠ ';' := by
  induction ops with
  | nil => simp [operandText, List.intercalate]
  | cons a ops ih =>
    cases ops with
    | nil =>
      intro x hx
      exact (numberText_plain a.1 a.2 x (by simpa [operandText, List.intercalate] using hx)).2.2
    | cons b ops =>
      rw [operandText_cons]
      intro x hx
      simp only [List.mem_append, List.mem_cons] at hx
      rcases hx with hx | rfl | rfl | hx
      · exact (numberText_plain _ _ x hx).2.2
      · decide
      · decide
      · exact ih x hx

/-- Operands begin and end with a digit. -/
theorem operandText_ends (a : Bool × Nat) (ops : List (Bool × Nat)) :
    operandText (a :: ops) ≠ [] ∧ (∀ x ∈ (operandText (a :: ops)).head?, isBlank x = false) ∧
      ∀ x ∈ (operandText (a :: ops)).getLast?, isBlank x = false := by
  induction ops generalizing a with
  | nil =>
    have e : operandText [a] = numberText a.1 a.2 := by simp [operandText, List.intercalate]
    rw [e]
    exact ⟨numberText_ne_nil _ _, fun x hx => (numberText_plain _ _ x (List.mem_of_head? hx)).1,
      fun x hx => (numberText_plain _ _ x (List.mem_of_getLast? hx)).1⟩
  | cons b ops ih =>
    obtain ⟨h1, _, h3⟩ := ih b
    rw [operandText_cons]
    have h0 := numberText_ne_nil a.1 a.2
    refine ⟨by simp, ?_, ?_⟩
    · rw [List.head?_append_of_ne_nil _ h0]
      exact fun x hx => (numberText_plain _ _ x (List.mem_of_head? hx)).1
    · rw [List.getLast?_append_of_ne_nil _ (by simp), List.getLast?_cons_cons, List.getLast?_cons_of_ne_nil h1]
      exact h3

theorem operandPart_ne_comma (a : Bool × Nat) {pre : List Char} (hp : pre = [] ∨ pre = [' ']) :
    ∀ x ∈ pre ++ numberText a.1 a.2, x ≠ ',' := by
  intro x hx
  rcases List.mem_append.mp hx with hx | hx
  · rcases hp with rfl | rfl
    · exact absurd hx List.not_mem_nil
    · rw [List.mem_singleton.mp hx]; decide
  · exact (numberText_plain _ _ x hx).2.1

theorem parseNumber_operandPart (a : Bool × Nat) {pre : List Char} (hp : pre = [] ∨ pre = [' ']) :
    parseNumber (trimBlanks (pre ++ numberText a.1 a.2)) = some a.2 := by
  have h : trimBlanks (pre ++ numberText a.1 a.2) = numberText a.1 a.2 := by
    rcases hp with rfl | rfl
    · exact (numberText_plain _ _).trimBlanks
    · exact (trimBlanks_cons_blank rfl _).trans (numberText_plain _ _).trimBlanks
  rw [h, parseNumber_numberText]

/-- The parts of operands between their commas read back, blanks before them or not. -/
theorem mapM_splitCommas (a : Bool × Nat) (ops : List (Bool × Nat)) {pre : List Char} (hp : pre = [] ∨ pre = [' ']) :
    (splitCommas (pre ++ operandText (a :: ops))).mapM (fun w => parseNumber (trimBlanks w)) =
      some ((a :: ops).map Prod.snd) := by
  induction ops generalizing a pre with
  | nil =>
    have e : operandText [a] = numberText a.1 a.2 := by simp [operandText, List.intercalate]
    rw [e, splitCommas_plain (operandPart_ne_comma a hp)]
    simp [parseNumber_operandPart a hp]
  | cons b ops ih =>
    have h := ih b (.inr rfl)
    rw [List.singleton_append] at h
    rw [operandText_cons, ← List.append_assoc, splitCommas_append_comma (operandPart_ne_comma a hp), List.mapM_cons,
      parseNumber_operandPart a hp]
    simp [h]

/-- The operands of a line read back (30_encoding R88). -/
theorem parseOperands_operandText (ops : List (Bool × Nat)) :
    parseOperands (trimBlanks (operandText ops)) = some (ops.map Prod.snd) := by
  cases ops with
  | nil => rfl
  | cons a ops =>
    obtain ⟨h1, h2, h3⟩ := operandText_ends a ops
    rw [trimBlanks_eq_self h2 h3, parseOperands, if_neg (by simpa using h1)]
    exact mapM_splitCommas a ops (.inl rfl)

theorem takeWhile_not_comment {l : List Char} (h : ∀ x ∈ l, x ≠ ';') (m : List Char) :
    l.takeWhile (· != ';') = l ∧ (l ++ ';' :: m).takeWhile (· != ';') = l := by
  induction l with
  | nil => simp
  | cons x l ih =>
    obtain ⟨h1, h2⟩ := ih fun y hy => h y (by simp [hy])
    simp only [List.cons_append, List.takeWhile_cons, bne_iff_ne, ne_eq, h x (by simp), not_false_eq_true, if_true, h1,
      h2, and_self]

/-- A line of a mnemonic and comma-separated numbers is that mnemonic with those operands, with or without a comment
(30_encoding R88). -/
theorem assembleLine_operandText (N : Nat) {mnemonic : List Char} (h0 : mnemonic ≠ [])
    (hm : ∀ x ∈ mnemonic, isBlank x = false ∧ x ≠ ';') (comment : List Char) (ops : List (Bool × Nat)) (line : List Char)
    (hl : line = mnemonic ++ [' '] ++ operandText ops ∨ line = mnemonic ++ [' '] ++ operandText ops ++ [';'] ++ comment) :
    assembleLine N (String.ofList line) = assembleOperation N (String.ofList mnemonic) (ops.map Prod.snd) := by
  have hc : ∀ x ∈ mnemonic ++ [' '] ++ operandText ops, x ≠ ';' := by
    intro x hx
    simp only [List.mem_append, List.mem_singleton] at hx
    rcases hx with (hx | rfl) | hx
    · exact (hm x hx).2
    · decide
    · exact mem_operandText ops x hx
  have hw : line.takeWhile (· != ';') = mnemonic ++ [' '] ++ operandText ops := by
    rcases hl with rfl | rfl
    · exact (takeWhile_not_comment hc []).1
    · simpa using (takeWhile_not_comment hc comment).2
  have htake : ∀ l : List Char, (∀ x ∈ l.head?, isBlank x = true) → (mnemonic ++ l).takeWhile (!isBlank ·) = mnemonic := by
    intro l hl
    rw [List.takeWhile_append_of_pos fun x hx => by simp [(hm x hx).1]]
    cases l with
    | nil => simp
    | cons x l => rw [List.takeWhile_cons, if_neg (by simp [hl x rfl])]; simp
  obtain ⟨l, ht, hl1, hl2⟩ : ∃ l, trimBlanks (mnemonic ++ [' '] ++ operandText ops) = mnemonic ++ l ∧
      (∀ x ∈ l.head?, isBlank x = true) ∧ trimBlanks l = trimBlanks (operandText ops) := by
    have hh : ∀ l : List Char, ∀ x ∈ (mnemonic ++ l).head?, isBlank x = false := by
      intro l x hx
      rw [List.head?_append_of_ne_nil _ h0] at hx
      exact (hm x (List.mem_of_head? hx)).1
    cases ops with
    | nil =>
      refine ⟨[], ?_, by simp, rfl⟩
      have hd : mnemonic.dropWhile isBlank ≠ [] := by
        cases mnemonic with
        | nil => exact absurd rfl h0
        | cons x l => rw [List.dropWhile_cons, if_neg (by simp [(hm x (by simp)).1])]; simp
      show trimBlanks (mnemonic ++ [' '] ++ []) = _
      rw [List.append_nil, trimBlanks_append_blank rfl _ hd, List.append_nil]
      have := hh []
      rw [List.append_nil] at this
      exact trimBlanks_eq_self this fun x hx => (hm x (List.mem_of_getLast? hx)).1
    | cons a ops =>
      obtain ⟨h1, _, h3⟩ := operandText_ends a ops
      refine ⟨' ' :: operandText (a :: ops), ?_, by simp [isBlank], trimBlanks_cons_blank rfl _⟩
      rw [List.append_assoc, List.singleton_append]
      refine trimBlanks_eq_self (hh _) ?_
      rw [List.getLast?_append_of_ne_nil _ (by simp), List.getLast?_cons_of_ne_nil h1]
      exact h3
  simp only [assembleLine, String.toList_ofList, hw, ht, htake l hl1, List.drop_left, hl2, parseOperands_operandText]
  rw [if_neg (by simpa using h0)]
  rfl

/-! ### The commands of a line -/

/-- An operand of `w` bits that does not fit gives none. -/
theorem operandBits_bind (w x : Nat) (f : BitVec w → Option (List Instr)) :
    (operandBits w x).bind f = if x < 2 ^ w then f (BitVec.ofNat w x) else none := by
  unfold operandBits; split <;> rfl

theorem operandBool_bind (x : Nat) (f : Bool → Option (List Instr)) :
    (operandBool x).bind f = if x < 2 then f (x = 1) else none := by
  unfold operandBool; split <;> rfl

theorem filter_wellFormed_singleton (i : Instr) :
    Option.filter (fun is : List Instr => is.all Instr.wellFormed) (some [i]) =
      if i.wellFormed = true then some [i] else none := by
  simp [Option.filter_some]

/-- The commands that an operation assembles to have operands that fit their fields (30_encoding R88). -/
theorem wellFormed_of_assembleOperation {N : Nat} {mnemonic : String} {ops : List Nat} {is : List Instr}
    (h : assembleOperation N mnemonic ops = some is) : ∀ i ∈ is, i.wellFormed = true := by
  rw [assembleOperation, Option.filter_eq_some_iff] at h
  exact List.all_eq_true.mp h.2

end Sys2Proof.Machine
end

