-- ==== Sys2Proof/Laws/Frame.lean ====
section
/-! SUPPORT. The laws of the frame builder and of the partition. -/

namespace Sys2Proof.Machine

@[simp] theorem Group.bytes_length (g : Group) : g.bytes.length = 2 := rfl

/-- The `i`-th pair of a list made of pairs: the bytes `2·i` and `2·i + 1`. -/
theorem flatMap_pair_getElem? {α : Type} (l : List α) (f : α → List Byte) (hf : ∀ x, (f x).length = 2)
    (i j : Nat) (hj : j < 2) : (l.flatMap f)[2 * i + j]? = l[i]?.bind fun x => (f x)[j]? := by
  induction l generalizing i with
  | nil => simp
  | cons x l ih =>
    rw [List.flatMap_cons]
    cases i with
    | zero => rw [List.getElem?_append_left (by rw [hf]; omega)]; simp
    | succ i =>
      rw [List.getElem?_append_right (by rw [hf]; omega), hf, show 2 * (i + 1) + j - 2 = 2 * i + j by omega, ih]
      simp

/-- Every frame has exactly `2·n` bytes (40_protocol R109). -/
@[simp] theorem buildFrame_length (n : Nat) (S : SlotMap) : (buildFrame n S).length = 2 * n := by
  simp [buildFrame, List.length_flatMap, Nat.mul_comm]

/-- The bytes of position `p`'s group (40_protocol R102). -/
theorem buildFrame_getElem? (n : Nat) (S : SlotMap) {p j : Nat} (hp : p < n) (hj : j < 2) :
    (buildFrame n S)[2 * (n - 1 - p) + j]? = ((S.at p).getD noopGroup).bytes[j]? := by
  rw [buildFrame, flatMap_pair_getElem? _ _ (fun _ => rfl) _ _ hj, List.getElem?_range (by omega)]
  simp [show n - 1 - (n - 1 - p) = p by omega]

theorem buildFrame_getD_addr (n : Nat) (S : SlotMap) {p : Nat} (hp : p < n) :
    (buildFrame n S).getD (2 * (n - 1 - p)) 0 = ((S.at p).getD noopGroup).addr.setWidth 8 := by
  have h := buildFrame_getElem? n S hp (show 0 < 2 by omega)
  rw [Nat.add_zero] at h
  simp [List.getD, h, Group.bytes]

theorem buildFrame_getD_value (n : Nat) (S : SlotMap) {p : Nat} (hp : p < n) :
    (buildFrame n S).getD (2 * (n - 1 - p) + 1) 0 = ((S.at p).getD noopGroup).value := by
  have h := buildFrame_getElem? n S hp (show 1 < 2 by omega)
  simp [List.getD, h, Group.bytes]

theorem oneSlot_at (p q : Nat) (g : Group) : (oneSlot p g).at q = if q = p then some g else none := by
  simp only [SlotMap.at, oneSlot, List.lookup_cons, List.lookup_nil]
  by_cases h : q = p
  · simp [h]
  · simp [beq_false_of_ne h, h]

/-- A map over positions, looked up. -/
theorem rangeSlots_at (n q : Nat) (f : Nat → Group) :
    SlotMap.at ((List.range n).map fun p => (p, f p)) q = if q < n then some (f q) else none := by
  simp only [SlotMap.at]
  induction n with
  | zero => simp
  | succ n ih =>
    rw [List.range_succ, List.map_append, List.lookup_append, ih]
    by_cases h1 : q < n
    · simp [h1, Nat.lt_succ_of_lt h1]
    · by_cases h2 : q = n
      · subst h2; simp
      · have : (q == n) = false := by simpa using h2
        simp [h1, List.lookup_cons, this, show ¬ q < n + 1 by omega]

theorem allSlots_at (n q : Nat) (g : Group) : (allSlots n g).at q = if q < n then some g else none :=
  rangeSlots_at n q fun _ => g

@[simp] theorem initSeq_length (n : Nat) : (initSeq n).length = 13 * n := by
  simp [initSeq, initGroups, List.length_flatMap, Nat.mul_comm]

/-- The slot maps of a partition hold the batch's commands, each once and in order (40_protocol R120). -/
theorem partitionFrom_flatten (S : SlotMap) (L : List RegisterCommand) :
    (partitionFrom S L).flatten = S ++ L.map RegisterCommand.slot := by
  induction L generalizing S with
  | nil => simp only [partitionFrom]; split <;> simp_all
  | cons e L ih => simp only [partitionFrom]; split <;> simp [ih]

/-- Every slot map a partition makes names each position at most once (40_protocol R120, property 1). -/
theorem partitionFrom_nodup {S : SlotMap} (L : List RegisterCommand) (hS : (S.map Prod.fst).Nodup) :
    ∀ T ∈ partitionFrom S L, (T.map Prod.fst).Nodup := by
  induction L generalizing S with
  | nil => simp only [partitionFrom]; split <;> simp_all
  | cons e L ih =>
    simp only [partitionFrom]
    split
    · intro T hT
      rcases List.mem_cons.mp hT with rfl | hT
      · exact hS
      · exact ih (by simp) T hT
    · next h =>
      refine ih ?_
      rw [List.map_append, List.nodup_append]
      refine ⟨hS, by simp, ?_⟩
      intro p hp q hq hpq
      simp only [List.map_cons, List.map_nil, List.mem_singleton, RegisterCommand.slot] at hq
      subst hpq; subst hq
      rw [SlotMap.at, Option.not_isSome_iff_eq_none, List.lookup_eq_none_iff] at h
      obtain ⟨x, hx, hx2⟩ := List.mem_map.mp hp
      simpa [hx2] using h x hx

/-- A slot map that a partition has begun is not lost. -/
theorem partitionFrom_ne_nil {S : SlotMap} (L : List RegisterCommand) (hS : S ≠ []) :
    ∀ T ∈ partitionFrom S L, T ≠ [] := by
  induction L generalizing S with
  | nil => simp only [partitionFrom]; split <;> simp_all
  | cons e L ih =>
    simp only [partitionFrom]
    split
    · intro T hT
      rcases List.mem_cons.mp hT with rfl | hT
      · exact hS
      · exact ih (by simp) T hT
    · exact ih (by simp)

/-- A partition holds the batch's commands, each once and in order (40_protocol R120, property 2). -/
theorem partition_flatten (L : List RegisterCommand) : (partition L).flatten = L.map RegisterCommand.slot := by
  rw [partition, partitionFrom_flatten, List.nil_append]

/-- No slot map of a partition names a module twice (40_protocol R120, property 1). -/
theorem partition_nodup (L : List RegisterCommand) : ∀ S ∈ partition L, (S.map Prod.fst).Nodup :=
  partitionFrom_nodup L List.nodup_nil

end Sys2Proof.Machine
end

