-- ==== Sys2Proof/Laws/Chain.lean ====
section
/-! SUPPORT. The laws of the chain observer: what a register holds after a module takes a group, after a frame is
latched, and after a failed transaction. -/

namespace Sys2Proof.Machine

@[simp] theorem writeReg_noop (d p : Nat) (v : Byte) (regs : ModuleRegs) : writeReg d p 0x0 v regs = regs := by
  simp [writeReg]

theorem writeReg_unnamed {a : BitVec 4} (h : unnamedReg a = true) (d p : Nat) (v : Byte) (regs : ModuleRegs) :
    writeReg d p a v regs = unknownRegs d p := by
  have h0 : a ≠ 0x0 := by rintro rfl; simp [unnamedReg] at h
  rw [writeReg, if_neg h0, if_pos h]

theorem writeReg_named {a : BitVec 4} (h0 : a ≠ 0x0) (h : unnamedReg a = false) (d p : Nat) (v : Byte)
    (regs : ModuleRegs) : writeReg d p a v regs = setReg regs a v := by
  rw [writeReg, if_neg h0, if_neg (by simp [h])]

theorem regAt_setReg (regs : ModuleRegs) (a b : BitVec 4) (v : Byte) :
    regAt (setReg regs a v) b = if b = a then v else regAt regs b := by
  have hb := b.isLt
  simp only [setReg, regAt]
  rw [Vector.getElem_set]
  by_cases h : b = a
  · subst h; simp
  · have : a.toNat ≠ b.toNat := fun e => h (BitVec.eq_of_toNat_eq e.symm)
    simp [h, this]

theorem chainAt_of_lt (chain : Vector ModuleRegs 256) {p : Nat} (h : p < 256) : chainAt chain p = chain[p] := by
  simp [chainAt, h]

theorem chainAt_set (chain : Vector ModuleRegs 256) (i : Fin 256) (r : ModuleRegs) (p : Nat) :
    chainAt (chain.set i.val r i.isLt) p = if p = i.val then r else chainAt chain p := by
  have hi := i.isLt
  unfold chainAt
  by_cases h : p = i.val
  · subst h; simp
  · rw [if_neg h]
    congr 1
    rw [Vector.getElem?_set_ne]
    exact fun e => h e.symm

theorem chainAt_latchFrame (d : Nat) (f : List Byte) (chain : Vector ModuleRegs 256) {p : Nat} (h : p < 256)
    (hp : p < f.length / 2) :
    chainAt (latchFrame d f chain) p =
      takeGroup d p (f.getD (groupOffset (f.length / 2) p) 0) (f.getD (groupOffset (f.length / 2) p + 1) 0)
        (chainAt chain p) := by
  rw [chainAt_of_lt _ h, latchFrame, tabulate_getElem, if_pos hp]

/-- Latching a frame the block built: the module at `p` takes its group (40_protocol R102, R104). -/
theorem chainAt_latch_buildFrame (d : Nat) {n : Nat} (S : SlotMap) (chain : Vector ModuleRegs 256) {p : Nat} (h : p < 256)
    (hp : p < n) :
    chainAt (latchFrame d (buildFrame n S) chain) p =
      writeReg d p ((S.at p).getD noopGroup).addr ((S.at p).getD noopGroup).value (chainAt chain p) := by
  have hl : (buildFrame n S).length / 2 = n := by rw [buildFrame_length, Nat.mul_div_cancel_left n (by omega)]
  rw [chainAt_latchFrame _ _ _ h (by rw [hl]; exact hp), hl, groupOffset, takeGroup, buildFrame_getD_addr n S hp,
    buildFrame_getD_value n S hp]
  congr 1
  ext i hi
  simp [hi]
  omega

theorem chainAt_unknownChain (d : Nat) {p : Nat} (h : p < 256) : chainAt (unknownChain d) p = unknownRegs d p := by
  rw [chainAt_of_lt _ h, unknownChain, tabulate_getElem]

@[simp] theorem regAt_unknownRegs (d p : Nat) (a : BitVec 4) :
    regAt (unknownRegs d p) a = Config.chainUnknown d p a.toNat := by
  have := a.isLt
  simp [unknownRegs, regAt]

end Sys2Proof.Machine
end

