-- ==== Sys2Proof/Laws/Decode.lean ====
section
/-! SUPPORT. The laws of decoding and encoding: each row's mask and match as its opcode and its reserved fields
(30_encoding R71 to R80), the decoder by opcode, and the fields of the words the encoder builds. -/

namespace Sys2Proof

theorem eq_iff_bits {n : Nat} (x y : BitVec n) : x = y ↔ ∀ i, i < n → x.getLsbD i = y.getLsbD i :=
  ⟨fun h => by simp [h], fun h => BitVec.eq_of_getLsbD_eq h⟩

theorem forall_le_one {p : Nat → Prop} : (∀ m, m ≤ 1 → p m) ↔ p 0 ∧ p 1 :=
  ⟨fun h => ⟨h 0 (by omega), h 1 (by omega)⟩, fun h m hm => by
    rcases Nat.le_one_iff_eq_zero_or_eq_one.mp hm with rfl | rfl
    exacts [h.1, h.2]⟩

/-- No two rows of the opcode map select one word (30_encoding R81: "At most one row matches"): some bit that both masks
cover differs. -/
theorem commandRows_disjoint :
    commandRows.Pairwise fun x y => x.pattern &&& (x.mask &&& y.mask) ≠ y.pattern &&& (x.mask &&& y.mask) := by
  decide

/-! ### Each row's mask and match -/

theorem selectsCfgCount (w : Word) :
    (w &&& 0xFFFFFF00 = 0x10000000) ↔ fieldOp w = 0x1 ∧ w.extractLsb' 8 20 = 0 := by
  simp [fieldOp, eq_iff_bits, Nat.forall_lt_succ_right, forall_le_one, BitVec.getLsbD_extractLsb', and_assoc,
    -BitVec.getLsbD_eq_getElem]
  tauto

theorem selectsCfgModule (w : Word) :
    (w &&& 0xFF0000F0 = 0x20000000) ↔ fieldOp w = 0x2 ∧ w.extractLsb' 24 4 = 0 ∧ w.extractLsb' 4 4 = 0 := by
  simp [fieldOp, eq_iff_bits, Nat.forall_lt_succ_right, forall_le_one, BitVec.getLsbD_extractLsb', and_assoc,
    -BitVec.getLsbD_eq_getElem]
  tauto

theorem selectsInit (w : Word) :
    (w &&& 0xFFFFFFFF = 0x30000000) ↔ fieldOp w = 0x3 ∧ w.extractLsb' 0 28 = 0 := by
  simp [fieldOp, eq_iff_bits, Nat.forall_lt_succ_right, forall_le_one, BitVec.getLsbD_extractLsb', and_assoc,
    -BitVec.getLsbD_eq_getElem]
  tauto

theorem selectsSendOne (w : Word) :
    (w &&& 0xF000FF00 = 0x40000000) ↔ fieldOp w = 0x4 ∧ w.extractLsb' 8 8 = 0 := by
  simp [fieldOp, eq_iff_bits, Nat.forall_lt_succ_right, forall_le_one, BitVec.getLsbD_extractLsb', and_assoc,
    -BitVec.getLsbD_eq_getElem]
  tauto

theorem selectsBatchPut (w : Word) :
    (w &&& 0xF000FF00 = 0x50000000) ↔ fieldOp w = 0x5 ∧ w.extractLsb' 8 8 = 0 := by
  simp [fieldOp, eq_iff_bits, Nat.forall_lt_succ_right, forall_le_one, BitVec.getLsbD_extractLsb', and_assoc,
    -BitVec.getLsbD_eq_getElem]
  tauto

theorem selectsBatchSend (w : Word) :
    (w &&& 0xFFFFFFFF = 0x60000000) ↔ fieldOp w = 0x6 ∧ w.extractLsb' 0 28 = 0 := by
  simp [fieldOp, eq_iff_bits, Nat.forall_lt_succ_right, forall_le_one, BitVec.getLsbD_extractLsb', and_assoc,
    -BitVec.getLsbD_eq_getElem]
  tauto

theorem selectsSetIntensity (w : Word) :
    (w &&& 0xFFFFFF00 = 0x70000000) ↔ fieldOp w = 0x7 ∧ w.extractLsb' 8 20 = 0 := by
  simp [fieldOp, eq_iff_bits, Nat.forall_lt_succ_right, forall_le_one, BitVec.getLsbD_extractLsb', and_assoc,
    -BitVec.getLsbD_eq_getElem]
  tauto

theorem selectsSetTestMode (w : Word) :
    (w &&& 0xFFFFFFFE = 0x80000000) ↔ fieldOp w = 0x8 ∧ w.extractLsb' 1 27 = 0 := by
  simp [fieldOp, eq_iff_bits, Nat.forall_lt_succ_right, forall_le_one, BitVec.getLsbD_extractLsb', and_assoc,
    -BitVec.getLsbD_eq_getElem]
  tauto

theorem selectsSetPixel (w : Word) :
    (w &&& 0xFE000000 = 0x90000000) ↔ fieldOp w = 0x9 ∧ w.extractLsb' 25 3 = 0 := by
  simp [fieldOp, eq_iff_bits, Nat.forall_lt_succ_right, forall_le_one, BitVec.getLsbD_extractLsb', and_assoc,
    -BitVec.getLsbD_eq_getElem]
  tauto

theorem selectsGetPixel (w : Word) :
    (w &&& 0xFF000000 = 0xA0000000) ↔ fieldOp w = 0xA ∧ w.extractLsb' 24 4 = 0 := by
  simp [fieldOp, eq_iff_bits, Nat.forall_lt_succ_right, forall_le_one, BitVec.getLsbD_extractLsb', and_assoc,
    -BitVec.getLsbD_eq_getElem]
  tauto

theorem selectsClear (w : Word) :
    (w &&& 0xFFFFFFFF = 0xB0000000) ↔ fieldOp w = 0xB ∧ w.extractLsb' 0 28 = 0 := by
  simp [fieldOp, eq_iff_bits, Nat.forall_lt_succ_right, forall_le_one, BitVec.getLsbD_extractLsb', and_assoc,
    -BitVec.getLsbD_eq_getElem]
  tauto

theorem selectsFlush (w : Word) :
    (w &&& 0xFFFFFFFF = 0xC0000000) ↔ fieldOp w = 0xC ∧ w.extractLsb' 0 28 = 0 := by
  simp [fieldOp, eq_iff_bits, Nat.forall_lt_succ_right, forall_le_one, BitVec.getLsbD_extractLsb', and_assoc,
    -BitVec.getLsbD_eq_getElem]
  tauto

theorem selectsMap (w : Word) :
    (w &&& 0xFF000000 = 0xD0000000) ↔ fieldOp w = 0xD ∧ w.extractLsb' 24 4 = 0 := by
  simp [fieldOp, eq_iff_bits, Nat.forall_lt_succ_right, forall_le_one, BitVec.getLsbD_extractLsb', and_assoc,
    -BitVec.getLsbD_eq_getElem]
  tauto

/-! ### The decoder by opcode -/

theorem four_bits (x : BitVec 4) :
    x = 0x0 ∨ x = 0x1 ∨ x = 0x2 ∨ x = 0x3 ∨ x = 0x4 ∨ x = 0x5 ∨ x = 0x6 ∨ x = 0x7 ∨ x = 0x8 ∨ x = 0x9 ∨ x = 0xA ∨
      x = 0xB ∨ x = 0xC ∨ x = 0xD ∨ x = 0xE ∨ x = 0xF := by
  revert x; decide

/-- `Decode(w)` by the opcode and the reserved fields (30_encoding R81, R84). -/
theorem decodeCommand_eq (w : Word) :
    decodeCommand w =
      match (fieldOp w).toNat with
      | 1 => if w.extractLsb' 8 20 = 0 then .ok (.cfgCount (fieldLo w)) else .error (rejection w)
      | 2 => if w.extractLsb' 24 4 = 0 ∧ w.extractLsb' 4 4 = 0 then .ok (.cfgModule (fieldHi w) (fieldMid w) (fieldO w)) else .error (rejection w)
      | 3 => if w.extractLsb' 0 28 = 0 then .ok (.init) else .error (rejection w)
      | 4 => if w.extractLsb' 8 8 = 0 then .ok (.sendOne (fieldHi w) (fieldA w) (fieldV w)) else .error (rejection w)
      | 5 => if w.extractLsb' 8 8 = 0 then .ok (.batchPut (fieldHi w) (fieldA w) (fieldV w)) else .error (rejection w)
      | 6 => if w.extractLsb' 0 28 = 0 then .ok (.batchSend) else .error (rejection w)
      | 7 => if w.extractLsb' 8 20 = 0 then .ok (.setIntensity (fieldLo w)) else .error (rejection w)
      | 8 => if w.extractLsb' 1 27 = 0 then .ok (.setTestMode (fieldB w)) else .error (rejection w)
      | 9 => if w.extractLsb' 25 3 = 0 then .ok (.setPixel (fieldHi w) (fieldMid w) (fieldLo w) (fieldOn w)) else .error (rejection w)
      | 10 => if w.extractLsb' 24 4 = 0 then .ok (.getPixel (fieldHi w) (fieldMid w) (fieldLo w)) else .error (rejection w)
      | 11 => if w.extractLsb' 0 28 = 0 then .ok (.clear) else .error (rejection w)
      | 12 => if w.extractLsb' 0 28 = 0 then .ok (.flush) else .error (rejection w)
      | 13 => if w.extractLsb' 24 4 = 0 then .ok (.map (fieldHi w) (fieldMid w) (fieldLo w)) else .error (rejection w)
      | _ => .error (rejection w) := by
  simp only [decodeCommand, commandRows, List.find?, CommandRow.selects, beq_eq_decide, selectsCfgCount, selectsCfgModule, selectsInit, selectsSendOne, selectsBatchPut, selectsBatchSend, selectsSetIntensity, selectsSetTestMode, selectsSetPixel, selectsGetPixel, selectsClear, selectsFlush, selectsMap]
  rcases four_bits (fieldOp w) with h | h | h | h | h | h | h | h | h | h | h | h | h | h | h | h <;>
    simp only [h] <;> simp [-Bool.decide_and] <;> split_ifs with hr <;> simp [hr, -Bool.decide_and]

/-! ### The fields of the encoder's words -/

theorem byteField_toNat {x : Nat} (h : fits 8 x = true) : (byteField x).toNat = x := by
  have : x < 256 := by simpa [fits] using h
  simp [byteField, Nat.mod_eq_of_lt this]

@[simp] theorem byteField_toNat_self (b : BitVec 8) : byteField b.toNat = b := by simp [byteField]

theorem extract_high {a b : Nat} (x : BitVec a) (y : BitVec b) (i n : Nat) :
    (x ++ y).extractLsb' (b + i) n = x.extractLsb' i n := by
  ext j hj
  simp [BitVec.getLsbD_append, show ¬ b + i + j < b by omega, show b + i + j - b = i + j by omega]

theorem extract_low {a b n : Nat} (x : BitVec a) (y : BitVec b) (h : n ≤ b) :
    (x ++ y).extractLsb' 0 n = y.extractLsb' 0 n := by
  ext j hj
  simp [BitVec.getLsbD_append, show j < b by omega]

theorem extract_all {a : Nat} (x : BitVec a) : x.extractLsb' 0 a = x := by
  ext j hj
  simp

theorem getLsbD_eq_extract {a : Nat} (x : BitVec a) (i : Nat) : x.getLsbD i = (x.extractLsb' i 1).getLsbD 0 := by
  simp

@[simp] theorem wordZ_fieldOp (op : BitVec 4) : fieldOp (wordZ op) = op :=
  (extract_high _ 0#28 0 4).trans (extract_all op)

@[simp] theorem wordZ_reserved0 (op : BitVec 4) : (wordZ op).extractLsb' 0 28 = 0#28 :=
  (extract_low _ 0#28 (Nat.le_refl _)).trans (extract_all 0#28)

@[simp] theorem wordB_fieldOp (op : BitVec 4) (x : Nat) : fieldOp (wordB op x) = op :=
  (extract_high _ (byteField x) 20 4).trans ((extract_high _ 0#20 0 4).trans (extract_all op))

@[simp] theorem wordB_reserved8 (op : BitVec 4) (x : Nat) : (wordB op x).extractLsb' 8 20 = 0#20 :=
  (extract_high _ (byteField x) 0 20).trans ((extract_low _ 0#20 (Nat.le_refl _)).trans (extract_all 0#20))

@[simp] theorem wordB_fieldLo (op : BitVec 4) (x : Nat) : fieldLo (wordB op x) = (byteField x).toNat :=
  congrArg BitVec.toNat ((extract_low _ (byteField x) (Nat.le_refl _)).trans (extract_all (byteField x)))

@[simp] theorem wordT_fieldOp (op : BitVec 4) (b : Bool) : fieldOp (wordT op b) = op :=
  (extract_high _ (BitVec.ofBool b) 27 4).trans ((extract_high _ 0#27 0 4).trans (extract_all op))

@[simp] theorem wordT_reserved1 (op : BitVec 4) (b : Bool) : (wordT op b).extractLsb' 1 27 = 0#27 :=
  (extract_high _ (BitVec.ofBool b) 0 27).trans ((extract_low _ 0#27 (Nat.le_refl _)).trans (extract_all 0#27))

@[simp] theorem wordT_fieldB (op : BitVec 4) (b : Bool) : fieldB (wordT op b) = b :=
  (getLsbD_eq_extract _ _).trans ((congrArg (fun x => BitVec.getLsbD x 0)
    ((extract_low _ (BitVec.ofBool b) (Nat.le_refl _)).trans (extract_all (BitVec.ofBool b)))).trans (by simp))

@[simp] theorem wordM_fieldOp (op : BitVec 4) (m p : Nat) (o : BitVec 4) : fieldOp (wordM op m p o) = op :=
  (extract_high _ o 24 4).trans ((extract_high _ 0#4 20 4).trans ((extract_high _ (byteField p) 12 4).trans ((extract_high _ (byteField m) 4 4).trans ((extract_high _ 0#4 0 4).trans (extract_all op)))))

@[simp] theorem wordM_reserved24 (op : BitVec 4) (m p : Nat) (o : BitVec 4) : (wordM op m p o).extractLsb' 24 4 = 0#4 :=
  (extract_high _ o 20 4).trans ((extract_high _ 0#4 16 4).trans ((extract_high _ (byteField p) 8 4).trans ((extract_high _ (byteField m) 0 4).trans ((extract_low _ 0#4 (Nat.le_refl _)).trans (extract_all 0#4)))))

@[simp] theorem wordM_fieldHi (op : BitVec 4) (m p : Nat) (o : BitVec 4) : fieldHi (wordM op m p o) = (byteField m).toNat :=
  congrArg BitVec.toNat ((extract_high _ o 12 8).trans ((extract_high _ 0#4 8 8).trans ((extract_high _ (byteField p) 0 8).trans ((extract_low _ (byteField m) (Nat.le_refl _)).trans (extract_all (byteField m))))))

@[simp] theorem wordM_fieldMid (op : BitVec 4) (m p : Nat) (o : BitVec 4) : fieldMid (wordM op m p o) = (byteField p).toNat :=
  congrArg BitVec.toNat ((extract_high _ o 4 8).trans ((extract_high _ 0#4 0 8).trans ((extract_low _ (byteField p) (Nat.le_refl _)).trans (extract_all (byteField p)))))

@[simp] theorem wordM_reserved4 (op : BitVec 4) (m p : Nat) (o : BitVec 4) : (wordM op m p o).extractLsb' 4 4 = 0#4 :=
  (extract_high _ o 0 4).trans ((extract_low _ 0#4 (Nat.le_refl _)).trans (extract_all 0#4))

@[simp] theorem wordM_fieldO (op : BitVec 4) (m p : Nat) (o : BitVec 4) : fieldO (wordM op m p o) = o :=
  (extract_low _ o (Nat.le_refl _)).trans (extract_all o)

@[simp] theorem wordS_fieldOp (op : BitVec 4) (p : Nat) (a : BitVec 4) (v : Byte) : fieldOp (wordS op p a v) = op :=
  (extract_high _ v 20 4).trans ((extract_high _ 0#8 12 4).trans ((extract_high _ (byteField p) 4 4).trans ((extract_high _ a 0 4).trans (extract_all op))))

@[simp] theorem wordS_fieldA (op : BitVec 4) (p : Nat) (a : BitVec 4) (v : Byte) : fieldA (wordS op p a v) = a :=
  (extract_high _ v 16 4).trans ((extract_high _ 0#8 8 4).trans ((extract_high _ (byteField p) 0 4).trans ((extract_low _ a (Nat.le_refl _)).trans (extract_all a))))

@[simp] theorem wordS_fieldHi (op : BitVec 4) (p : Nat) (a : BitVec 4) (v : Byte) : fieldHi (wordS op p a v) = (byteField p).toNat :=
  congrArg BitVec.toNat ((extract_high _ v 8 8).trans ((extract_high _ 0#8 0 8).trans ((extract_low _ (byteField p) (Nat.le_refl _)).trans (extract_all (byteField p)))))

@[simp] theorem wordS_reserved8 (op : BitVec 4) (p : Nat) (a : BitVec 4) (v : Byte) : (wordS op p a v).extractLsb' 8 8 = 0#8 :=
  (extract_high _ v 0 8).trans ((extract_low _ 0#8 (Nat.le_refl _)).trans (extract_all 0#8))

@[simp] theorem wordS_fieldV (op : BitVec 4) (p : Nat) (a : BitVec 4) (v : Byte) : fieldV (wordS op p a v) = v :=
  (extract_low _ v (Nat.le_refl _)).trans (extract_all v)

@[simp] theorem wordP_fieldOp (op : BitVec 4) (on : Bool) (m r c : Nat) : fieldOp (wordP op on m r c) = op :=
  (extract_high _ (byteField c) 20 4).trans ((extract_high _ (byteField r) 12 4).trans ((extract_high _ (byteField m) 4 4).trans ((extract_high _ (BitVec.ofBool on) 3 4).trans ((extract_high _ 0#3 0 4).trans (extract_all op)))))

@[simp] theorem wordP_reserved25 (op : BitVec 4) (on : Bool) (m r c : Nat) : (wordP op on m r c).extractLsb' 25 3 = 0#3 :=
  (extract_high _ (byteField c) 17 3).trans ((extract_high _ (byteField r) 9 3).trans ((extract_high _ (byteField m) 1 3).trans ((extract_high _ (BitVec.ofBool on) 0 3).trans ((extract_low _ 0#3 (Nat.le_refl _)).trans (extract_all 0#3)))))

@[simp] theorem wordP_fieldOn (op : BitVec 4) (on : Bool) (m r c : Nat) : fieldOn (wordP op on m r c) = on :=
  (getLsbD_eq_extract _ _).trans ((congrArg (fun x => BitVec.getLsbD x 0)
    ((extract_high _ (byteField c) 16 1).trans ((extract_high _ (byteField r) 8 1).trans ((extract_high _ (byteField m) 0 1).trans ((extract_low _ (BitVec.ofBool on) (Nat.le_refl _)).trans (extract_all (BitVec.ofBool on))))))).trans (by simp))

@[simp] theorem wordP_fieldHi (op : BitVec 4) (on : Bool) (m r c : Nat) : fieldHi (wordP op on m r c) = (byteField m).toNat :=
  congrArg BitVec.toNat ((extract_high _ (byteField c) 8 8).trans ((extract_high _ (byteField r) 0 8).trans ((extract_low _ (byteField m) (Nat.le_refl _)).trans (extract_all (byteField m)))))

@[simp] theorem wordP_fieldMid (op : BitVec 4) (on : Bool) (m r c : Nat) : fieldMid (wordP op on m r c) = (byteField r).toNat :=
  congrArg BitVec.toNat ((extract_high _ (byteField c) 0 8).trans ((extract_low _ (byteField r) (Nat.le_refl _)).trans (extract_all (byteField r))))

@[simp] theorem wordP_fieldLo (op : BitVec 4) (on : Bool) (m r c : Nat) : fieldLo (wordP op on m r c) = (byteField c).toNat :=
  congrArg BitVec.toNat ((extract_low _ (byteField c) (Nat.le_refl _)).trans (extract_all (byteField c)))

@[simp] theorem wordP_reserved24 (op : BitVec 4) (m r c : Nat) :
    (wordP op false m r c).extractLsb' 24 4 = 0#4 :=
  (extract_high _ (byteField c) 16 4).trans ((extract_high _ (byteField r) 8 4).trans
    ((extract_high _ (byteField m) 0 4).trans (by revert op; decide)))

/-! ### A word is the encoding of its fields -/

theorem extract_split {n : Nat} (x : BitVec n) (i a b : Nat) :
    x.extractLsb' i (a + b) = x.extractLsb' (i + b) a ++ x.extractLsb' i b := by
  apply BitVec.eq_of_getLsbD_eq
  intro j hj
  simp only [BitVec.getLsbD_append, BitVec.getLsbD_extractLsb']
  by_cases h : j < b
  · simp [h, hj]
  · simp [h, hj, show j - b < a by omega, show i + b + (j - b) = i + j by omega]

@[simp] theorem ofBool_extract (w : Word) (i : Nat) : BitVec.ofBool (w.getLsbD i) = w.extractLsb' i 1 := by
  ext j hj
  simp [show j = 0 by omega]

theorem eq_wordZ {w : Word} {op : BitVec 4} (h : fieldOp w = op) (h0 : w.extractLsb' 0 28 = 0) :
    wordZ op = w := by
  have e : w = w.extractLsb' 28 4 ++ w.extractLsb' 0 28 :=
    (extract_all w).symm.trans (extract_split w 0 4 28)
  subst h
  simp only [wordZ]
  exact .trans (by simp only [h0]; rfl) e.symm

theorem eq_wordB {w : Word} {op : BitVec 4} (h : fieldOp w = op) (h8 : w.extractLsb' 8 20 = 0) :
    wordB op (fieldLo w) = w := by
  have e : w = w.extractLsb' 28 4 ++ w.extractLsb' 8 20 ++ w.extractLsb' 0 8 :=
    (extract_all w).symm.trans ((extract_split w 0 24 8).trans (congrArg (· ++ w.extractLsb' 0 8) (extract_split w 8 4 20)))
  subst h
  simp only [wordB, fieldLo, byteField_toNat_self]
  exact .trans (by simp only [h8]; rfl) e.symm

theorem eq_wordT {w : Word} {op : BitVec 4} (h : fieldOp w = op) (h1 : w.extractLsb' 1 27 = 0) :
    wordT op (fieldB w) = w := by
  have e : w = w.extractLsb' 28 4 ++ w.extractLsb' 1 27 ++ w.extractLsb' 0 1 :=
    (extract_all w).symm.trans ((extract_split w 0 31 1).trans (congrArg (· ++ w.extractLsb' 0 1) (extract_split w 1 4 27)))
  subst h
  simp only [wordT, fieldB, ofBool_extract]
  exact .trans (by simp only [h1]; rfl) e.symm

theorem eq_wordM {w : Word} {op : BitVec 4} (h : fieldOp w = op) (h24 : w.extractLsb' 24 4 = 0) (h4 : w.extractLsb' 4 4 = 0) :
    wordM op (fieldHi w) (fieldMid w) (fieldO w) = w := by
  have e : w = w.extractLsb' 28 4 ++ w.extractLsb' 24 4 ++ w.extractLsb' 16 8 ++ w.extractLsb' 8 8 ++ w.extractLsb' 4 4 ++ w.extractLsb' 0 4 :=
    (extract_all w).symm.trans ((extract_split w 0 28 4).trans (congrArg (· ++ w.extractLsb' 0 4) ((extract_split w 4 24 4).trans (congrArg (· ++ w.extractLsb' 4 4) ((extract_split w 8 16 8).trans (congrArg (· ++ w.extractLsb' 8 8) ((extract_split w 16 8 8).trans (congrArg (· ++ w.extractLsb' 16 8) (extract_split w 24 4 4)))))))))
  subst h
  simp only [wordM, fieldHi, fieldMid, fieldO, byteField_toNat_self]
  exact .trans (by simp only [h24, h4]; rfl) e.symm

theorem eq_wordS {w : Word} {op : BitVec 4} (h : fieldOp w = op) (h8 : w.extractLsb' 8 8 = 0) :
    wordS op (fieldHi w) (fieldA w) (fieldV w) = w := by
  have e : w = w.extractLsb' 28 4 ++ w.extractLsb' 24 4 ++ w.extractLsb' 16 8 ++ w.extractLsb' 8 8 ++ w.extractLsb' 0 8 :=
    (extract_all w).symm.trans ((extract_split w 0 24 8).trans (congrArg (· ++ w.extractLsb' 0 8) ((extract_split w 8 16 8).trans (congrArg (· ++ w.extractLsb' 8 8) ((extract_split w 16 8 8).trans (congrArg (· ++ w.extractLsb' 16 8) (extract_split w 24 4 4)))))))
  subst h
  simp only [wordS, fieldA, fieldHi, fieldV, byteField_toNat_self]
  exact .trans (by simp only [h8]; rfl) e.symm

theorem eq_wordP {w : Word} {op : BitVec 4} (h : fieldOp w = op) (h25 : w.extractLsb' 25 3 = 0) :
    wordP op (fieldOn w) (fieldHi w) (fieldMid w) (fieldLo w) = w := by
  have e : w = w.extractLsb' 28 4 ++ w.extractLsb' 25 3 ++ w.extractLsb' 24 1 ++ w.extractLsb' 16 8 ++ w.extractLsb' 8 8 ++ w.extractLsb' 0 8 :=
    (extract_all w).symm.trans ((extract_split w 0 24 8).trans (congrArg (· ++ w.extractLsb' 0 8) ((extract_split w 8 16 8).trans (congrArg (· ++ w.extractLsb' 8 8) ((extract_split w 16 8 8).trans (congrArg (· ++ w.extractLsb' 16 8) ((extract_split w 24 7 1).trans (congrArg (· ++ w.extractLsb' 24 1) (extract_split w 25 4 3)))))))))
  subst h
  simp only [wordP, fieldOn, fieldHi, fieldMid, fieldLo, byteField_toNat_self, ofBool_extract]
  exact .trans (by simp only [h25]; rfl) e.symm

theorem reserved24_split {w : Word} (h : w.extractLsb' 24 4 = 0) : w.extractLsb' 25 3 = 0 ∧ fieldOn w = false := by
  have hb : ∀ i, i < 4 → w.getLsbD (24 + i) = false := fun i hi => by
    have := congrArg (fun x => BitVec.getLsbD x i) h
    simpa [hi] using this
  refine ⟨BitVec.eq_of_getLsbD_eq fun i hi => ?_, hb 0 (by omega)⟩
  have := hb (i + 1) (by omega)
  simpa [hi, show 25 + i = 24 + (i + 1) by omega] using this

theorem fits_toNat (x : BitVec 8) : fits 8 x.toNat = true := by
  simp only [fits, decide_eq_true_eq]; exact x.isLt

@[simp] theorem fits_fieldHi (w : Word) : fits 8 (fieldHi w) = true := fits_toNat _

@[simp] theorem fits_fieldMid (w : Word) : fits 8 (fieldMid w) = true := fits_toNat _

@[simp] theorem fits_fieldLo (w : Word) : fits 8 (fieldLo w) = true := fits_toNat _

end Sys2Proof
end

