-- ==== Sys2Proof/Laws/Flags.lean ====
section
/-! SUPPORT. The laws of the result word (30_encoding R85): its fields, its number, and the words of counts. -/

namespace Sys2Proof.Machine

theorem append_toNat {a b : Nat} (x : BitVec a) (y : BitVec b) : (x ++ y).toNat = x.toNat * 2 ^ b + y.toNat := by
  rw [BitVec.toNat_append, ← Nat.shiftLeft_add_eq_or_of_lt y.isLt, Nat.shiftLeft_eq]

theorem resultWord_toNat (st : Status) (d : BitVec 28) :
    (resultWord st d).toNat = st.code.toNat * 2 ^ 28 + d.toNat := append_toNat st.code d

/-- The status of a result word. -/
@[simp] theorem statusField_resultWord (st : Status) (d : BitVec 28) : statusField (resultWord st d) = st.code := by
  apply BitVec.eq_of_toNat_eq
  rw [statusField, BitVec.extractLsb'_toNat, resultWord_toNat, Nat.shiftRight_eq_div_pow]
  have := d.isLt
  have := st.code.isLt
  omega

/-- The data of a result word. -/
@[simp] theorem dataField_resultWord (st : Status) (d : BitVec 28) : dataField (resultWord st d) = d := by
  apply BitVec.eq_of_toNat_eq
  rw [dataField, BitVec.extractLsb'_toNat, resultWord_toNat, Nat.shiftRight_eq_div_pow]
  have := d.isLt
  omega

/-- A count below `2^28` with status OK is that number. -/
theorem resultWord_ok_count {n : Nat} (h : n < 2 ^ 28) : resultWord .ok (countData n) = BitVec.ofNat 32 n := by
  apply BitVec.eq_of_toNat_eq
  rw [resultWord_toNat, countData, BitVec.toNat_ofNat, BitVec.toNat_ofNat, Nat.mod_eq_of_lt h]
  show 0 * 2 ^ 28 + n = n % 2 ^ 32
  omega

/-- A count below `2^28` with status TRANSPORT_ERROR. -/
theorem resultWord_err_count {n : Nat} (h : n < 2 ^ 28) :
    resultWord .transportError (countData n) = 0x30000000 + BitVec.ofNat 32 n := by
  apply BitVec.eq_of_toNat_eq
  rw [resultWord_toNat, countData, BitVec.toNat_add, BitVec.toNat_ofNat, BitVec.toNat_ofNat, Nat.mod_eq_of_lt h]
  show 3 * 2 ^ 28 + n = (0x30000000 + n % 2 ^ 32) % 2 ^ 32
  omega

theorem Status.code_le (st : Status) : st.code.toNat ≤ 5 := by cases st <;> decide

end Sys2Proof.Machine
end

