-- ==== Sys2Proof/Laws/State.lean ====
section
/-! SUPPORT. What each named update of the state does to each field, one lemma per field: `rowWrite`, `transmit`,
`commitConfig`, `resetBlock` (true by `rfl`) and `moduleTakes`. -/

namespace Sys2Proof.Machine

/-! ### `rowWrite` -/

@[simp] theorem rowWrite_mode (a : Nat) (v : Byte) (s : State) : (rowWrite a v s).mode = s.mode := rfl
@[simp] theorem rowWrite_result (a : Nat) (v : Byte) (s : State) : (rowWrite a v s).result = s.result := rfl
@[simp] theorem rowWrite_stgN (a : Nat) (v : Byte) (s : State) : (rowWrite a v s).stgN = s.stgN := rfl
@[simp] theorem rowWrite_stgOrder (a : Nat) (v : Byte) (s : State) : (rowWrite a v s).stgOrder = s.stgOrder := rfl
@[simp] theorem rowWrite_stgOrient (a : Nat) (v : Byte) (s : State) : (rowWrite a v s).stgOrient = s.stgOrient := rfl
@[simp] theorem rowWrite_N (a : Nat) (v : Byte) (s : State) : (rowWrite a v s).N = s.N := rfl
@[simp] theorem rowWrite_order (a : Nat) (v : Byte) (s : State) : (rowWrite a v s).order = s.order := rfl
@[simp] theorem rowWrite_orient (a : Nat) (v : Byte) (s : State) : (rowWrite a v s).orient = s.orient := rfl
@[simp] theorem rowWrite_fb (a : Nat) (v : Byte) (s : State) : (rowWrite a v s).fb = Memory.write a v s.fb := rfl
@[simp] theorem rowWrite_batch (a : Nat) (v : Byte) (s : State) : (rowWrite a v s).batch = s.batch := rfl
@[simp] theorem rowWrite_busLog (a : Nat) (v : Byte) (s : State) : (rowWrite a v s).busLog = s.busLog := rfl
@[simp] theorem rowWrite_chain (a : Nat) (v : Byte) (s : State) : (rowWrite a v s).chain = s.chain := rfl
@[simp] theorem rowWrite_hpc (a : Nat) (v : Byte) (s : State) : (rowWrite a v s).hpc = s.hpc := rfl
@[simp] theorem rowWrite_pending (a : Nat) (v : Byte) (s : State) : (rowWrite a v s).pending = s.pending := rfl
@[simp] theorem rowWrite_answers (a : Nat) (v : Byte) (s : State) : (rowWrite a v s).answers = s.answers := rfl
@[simp] theorem rowWrite_groupPos (a : Nat) (v : Byte) (s : State) : (rowWrite a v s).groupPos = s.groupPos := rfl
@[simp] theorem rowWrite_draws (a : Nat) (v : Byte) (s : State) : (rowWrite a v s).draws = s.draws := rfl

/-! ### `transmit` -/

@[simp] theorem transmit_mode (f : List Byte) (s : State) : (transmit f s).mode = s.mode := rfl
@[simp] theorem transmit_result (f : List Byte) (s : State) : (transmit f s).result = s.result := rfl
@[simp] theorem transmit_stgN (f : List Byte) (s : State) : (transmit f s).stgN = s.stgN := rfl
@[simp] theorem transmit_stgOrder (f : List Byte) (s : State) : (transmit f s).stgOrder = s.stgOrder := rfl
@[simp] theorem transmit_stgOrient (f : List Byte) (s : State) : (transmit f s).stgOrient = s.stgOrient := rfl
@[simp] theorem transmit_N (f : List Byte) (s : State) : (transmit f s).N = s.N := rfl
@[simp] theorem transmit_order (f : List Byte) (s : State) : (transmit f s).order = s.order := rfl
@[simp] theorem transmit_orient (f : List Byte) (s : State) : (transmit f s).orient = s.orient := rfl
@[simp] theorem transmit_fb (f : List Byte) (s : State) : (transmit f s).fb = s.fb := rfl
@[simp] theorem transmit_batch (f : List Byte) (s : State) : (transmit f s).batch = s.batch := rfl
@[simp] theorem transmit_busLog (f : List Byte) (s : State) : (transmit f s).busLog = s.busLog ++ [⟨f, s.nextAnswer⟩] := rfl
@[simp] theorem transmit_hpc (f : List Byte) (s : State) : (transmit f s).hpc = s.hpc := rfl
@[simp] theorem transmit_pending (f : List Byte) (s : State) : (transmit f s).pending = s.pending := rfl
@[simp] theorem transmit_answers (f : List Byte) (s : State) : (transmit f s).answers = s.answers.tail := rfl
@[simp] theorem transmit_groupPos (f : List Byte) (s : State) : (transmit f s).groupPos = s.groupPos := rfl
@[simp] theorem transmit_draws (f : List Byte) (s : State) : (transmit f s).draws = s.draws + 1 := rfl

/-! ### `commitConfig` -/

@[simp] theorem commitConfig_mode (s : State) : (commitConfig s).mode = .configured := rfl
@[simp] theorem commitConfig_result (s : State) : (commitConfig s).result = s.result := rfl
@[simp] theorem commitConfig_stgN (s : State) : (commitConfig s).stgN = s.stgN := rfl
@[simp] theorem commitConfig_stgOrder (s : State) : (commitConfig s).stgOrder = s.stgOrder := rfl
@[simp] theorem commitConfig_stgOrient (s : State) : (commitConfig s).stgOrient = s.stgOrient := rfl
@[simp] theorem commitConfig_N (s : State) : (commitConfig s).N = s.stgN := rfl
@[simp] theorem commitConfig_fb (s : State) : (commitConfig s).fb = [] := rfl
@[simp] theorem commitConfig_batch (s : State) : (commitConfig s).batch = [] := rfl
@[simp] theorem commitConfig_busLog (s : State) : (commitConfig s).busLog = s.busLog := rfl
@[simp] theorem commitConfig_chain (s : State) : (commitConfig s).chain = s.chain := rfl
@[simp] theorem commitConfig_hpc (s : State) : (commitConfig s).hpc = s.hpc := rfl
@[simp] theorem commitConfig_pending (s : State) : (commitConfig s).pending = s.pending := rfl
@[simp] theorem commitConfig_answers (s : State) : (commitConfig s).answers = s.answers := rfl
@[simp] theorem commitConfig_groupPos (s : State) : (commitConfig s).groupPos = s.groupPos := rfl
@[simp] theorem commitConfig_draws (s : State) : (commitConfig s).draws = s.draws := rfl

/-! ### `resetBlock` -/

@[simp] theorem resetBlock_mode (s : State) : (resetBlock s).mode = State.reset.mode := rfl
@[simp] theorem resetBlock_result (s : State) : (resetBlock s).result = State.reset.result := rfl
@[simp] theorem resetBlock_stgN (s : State) : (resetBlock s).stgN = State.reset.stgN := rfl
@[simp] theorem resetBlock_stgOrder (s : State) : (resetBlock s).stgOrder = State.reset.stgOrder := rfl
@[simp] theorem resetBlock_stgOrient (s : State) : (resetBlock s).stgOrient = State.reset.stgOrient := rfl
@[simp] theorem resetBlock_N (s : State) : (resetBlock s).N = State.reset.N := rfl
@[simp] theorem resetBlock_order (s : State) : (resetBlock s).order = State.reset.order := rfl
@[simp] theorem resetBlock_orient (s : State) : (resetBlock s).orient = State.reset.orient := rfl
@[simp] theorem resetBlock_fb (s : State) : (resetBlock s).fb = State.reset.fb := rfl
@[simp] theorem resetBlock_batch (s : State) : (resetBlock s).batch = State.reset.batch := rfl
@[simp] theorem resetBlock_busLog (s : State) : (resetBlock s).busLog = s.busLog := rfl
@[simp] theorem resetBlock_chain (s : State) : (resetBlock s).chain = s.chain := rfl
@[simp] theorem resetBlock_hpc (s : State) : (resetBlock s).hpc = s.hpc := rfl
@[simp] theorem resetBlock_pending (s : State) : (resetBlock s).pending = s.pending := rfl
@[simp] theorem resetBlock_answers (s : State) : (resetBlock s).answers = s.answers := rfl
@[simp] theorem resetBlock_groupPos (s : State) : (resetBlock s).groupPos = s.groupPos := rfl
@[simp] theorem resetBlock_draws (s : State) : (resetBlock s).draws = s.draws := rfl

/-! ### `moduleTakes` -/

@[simp] theorem moduleTakes_mode (a : BitVec 4) (v : Byte) (s : State) : (moduleTakes a v s).mode = s.mode := by
  unfold moduleTakes; split <;> rfl
@[simp] theorem moduleTakes_result (a : BitVec 4) (v : Byte) (s : State) : (moduleTakes a v s).result = s.result := by
  unfold moduleTakes; split <;> rfl
@[simp] theorem moduleTakes_stgN (a : BitVec 4) (v : Byte) (s : State) : (moduleTakes a v s).stgN = s.stgN := by
  unfold moduleTakes; split <;> rfl
@[simp] theorem moduleTakes_stgOrder (a : BitVec 4) (v : Byte) (s : State) : (moduleTakes a v s).stgOrder = s.stgOrder := by
  unfold moduleTakes; split <;> rfl
@[simp] theorem moduleTakes_stgOrient (a : BitVec 4) (v : Byte) (s : State) : (moduleTakes a v s).stgOrient = s.stgOrient := by
  unfold moduleTakes; split <;> rfl
@[simp] theorem moduleTakes_N (a : BitVec 4) (v : Byte) (s : State) : (moduleTakes a v s).N = s.N := by
  unfold moduleTakes; split <;> rfl
@[simp] theorem moduleTakes_order (a : BitVec 4) (v : Byte) (s : State) : (moduleTakes a v s).order = s.order := by
  unfold moduleTakes; split <;> rfl
@[simp] theorem moduleTakes_orient (a : BitVec 4) (v : Byte) (s : State) : (moduleTakes a v s).orient = s.orient := by
  unfold moduleTakes; split <;> rfl
@[simp] theorem moduleTakes_fb (a : BitVec 4) (v : Byte) (s : State) : (moduleTakes a v s).fb = s.fb := by
  unfold moduleTakes; split <;> rfl
@[simp] theorem moduleTakes_batch (a : BitVec 4) (v : Byte) (s : State) : (moduleTakes a v s).batch = s.batch := by
  unfold moduleTakes; split <;> rfl
@[simp] theorem moduleTakes_busLog (a : BitVec 4) (v : Byte) (s : State) : (moduleTakes a v s).busLog = s.busLog := by
  unfold moduleTakes; split <;> rfl
@[simp] theorem moduleTakes_hpc (a : BitVec 4) (v : Byte) (s : State) : (moduleTakes a v s).hpc = s.hpc := by
  unfold moduleTakes; split <;> rfl
@[simp] theorem moduleTakes_pending (a : BitVec 4) (v : Byte) (s : State) : (moduleTakes a v s).pending = s.pending := by
  unfold moduleTakes; split <;> rfl
@[simp] theorem moduleTakes_answers (a : BitVec 4) (v : Byte) (s : State) : (moduleTakes a v s).answers = s.answers := by
  unfold moduleTakes; split <;> rfl
@[simp] theorem moduleTakes_groupPos (a : BitVec 4) (v : Byte) (s : State) : (moduleTakes a v s).groupPos = s.groupPos := by
  unfold moduleTakes; split <;> rfl

/-! ### Derived readings -/

@[simp] theorem transmit_count (f : List Byte) (s : State) : (transmit f s).count = s.count := rfl

theorem transmit_chain_ok {s : State} (h : s.nextAnswer = .ok) (f : List Byte) :
    (transmit f s).chain = latchFrame s.draws f s.chain := by simp [transmit, h]

theorem transmit_chain_err {s : State} (h : s.nextAnswer = .err) (f : List Byte) :
    (transmit f s).chain = unknownChain s.draws := by simp [transmit, h]

@[simp] theorem commitConfig_count (s : State) : (commitConfig s).count = s.stgN.toNat := rfl

@[simp] theorem commitConfig_nextAnswer (s : State) : (commitConfig s).nextAnswer = s.nextAnswer := rfl

theorem commitConfig_orderAt {s : State} {m : Nat} (h : m < s.stgN.toNat) :
    (commitConfig s).orderAt m = s.stgOrderAt m := by
  have h' : m < 256 := by omega
  simp [State.orderAt, commitConfig, h, h']

theorem commitConfig_orientAt {s : State} {m : Nat} (h : m < s.stgN.toNat) :
    (commitConfig s).orientAt m = s.stgOrientAt m := by
  have h' : m < 256 := by omega
  simp [State.orientAt, commitConfig, h, h']

end Sys2Proof.Machine
end

