-- ==== Sys2Proof/Laws/Ops.lean ====
section
/-! SUPPORT. What the shared operations can do, said once each: the checks, `Transmit`, the transmit loop and the ends of
a command. -/

namespace Sys2Proof.Machine

/-! ### The checks -/

@[simp] theorem configuredOnly_unconfigured {s : State} (h : s.mode = .unconfigured) (r : Result) :
    configuredOnly s r = raise .notInitialized 0 s := by simp [configuredOnly, h]

@[simp] theorem configuredOnly_configured {s : State} (h : s.mode = .configured) (r : Result) :
    configuredOnly s r = r := by simp [configuredOnly, h]

/-- What a command that reads MODE answers. -/
theorem configuredOnly_cases (s : State) (r : Result) :
    (s.mode = .unconfigured ∧ configuredOnly s r = raise .notInitialized 0 s) ∨
      (s.mode = .configured ∧ configuredOnly s r = r) := by
  cases h : s.mode
  · exact .inl ⟨rfl, configuredOnly_unconfigured h r⟩
  · exact .inr ⟨rfl, configuredOnly_configured h r⟩

theorem checkPosition_of_lt {p : Nat} {s : State} (h : p < s.count) (r : Result) : checkPosition p s r = r := by
  rw [checkPosition, if_neg (by omega)]

theorem checkPosition_of_le {p : Nat} {s : State} (h : s.count ≤ p) (r : Result) :
    checkPosition p s r = raise .outOfRange 0 s := by rw [checkPosition, if_pos h]

theorem checkPix_valid {m r c : Nat} {s : State} (hs : s.mode = .configured) (h : validPixel s m r c) (x : Result) :
    checkPix m r c s x = x := by
  rw [checkPix, configuredOnly_configured hs, if_neg (by omega)]

theorem checkPix_invalid {m r c : Nat} {s : State} (hs : s.mode = .configured) (h : ¬ validPixel s m r c)
    (x : Result) : checkPix m r c s x = raise .outOfRange 0 s := by
  rw [checkPix, configuredOnly_configured hs, if_pos (by omega)]

/-- What a pixel command answers. -/
theorem checkPix_cases (m r c : Nat) (s : State) (x : Result) :
    (s.mode = .unconfigured ∧ checkPix m r c s x = raise .notInitialized 0 s) ∨
      (s.mode = .configured ∧ ¬ validPixel s m r c ∧ checkPix m r c s x = raise .outOfRange 0 s) ∨
      (s.mode = .configured ∧ validPixel s m r c ∧ checkPix m r c s x = x) := by
  cases hs : s.mode
  · exact .inl ⟨rfl, by simp [checkPix, configuredOnly, hs]⟩
  · by_cases h : validPixel s m r c
    · exact .inr (.inr ⟨rfl, h, checkPix_valid hs h x⟩)
    · exact .inr (.inl ⟨rfl, h, checkPix_invalid hs h x⟩)

/-! ### The transport's answers -/

theorem nextAnswer_eq_answerAt (s : State) : s.nextAnswer = s.answerAt 0 := by
  simp only [State.nextAnswer, State.answerAt]
  cases s.answers <;> rfl

/-- What `Transmit` leaves beside the chain (40_protocol R100; log 1, log 5). -/
theorem transmit_frame (f : List Byte) (s : State) :
    (transmit f s).busLog = s.busLog ++ [⟨f, s.answerAt 0⟩] ∧ (transmit f s).answers = s.answers.tail ∧
      (transmit f s).draws = s.draws + 1 ∧ onlySent s (transmit f s) :=
  ⟨by simp [nextAnswer_eq_answerAt], rfl, rfl, rfl⟩

/-- After a `Transmit` the answers move up by one. -/
theorem answerAt_transmit (f : List Byte) (s : State) (k : Nat) :
    (transmit f s).answerAt k = s.answerAt (k + 1) := by
  simp only [State.answerAt, transmit_answers, transmit_busLog, List.length_append, List.length_singleton]
  rw [List.getElem?_tail, Nat.add_assoc, Nat.add_comm 1 k]

theorem okFor_transmit {k : Nat} {s : State} (h : okFor (k + 1) s) (f : List Byte) : okFor k (transmit f s) :=
  fun j hj => by rw [answerAt_transmit]; exact h (j + 1) (by omega)

theorem failsAt_transmit {k : Nat} {s : State} (h : failsAt (k + 1) s) (f : List Byte) : failsAt k (transmit f s) :=
  ⟨okFor_transmit h.1 f, by rw [answerAt_transmit]; exact h.2⟩

/-- Either the next `n` answers are all `Ok`, or one of them is the first `Err`. -/
theorem okFor_or_failsAt (n : Nat) (s : State) : okFor n s ∨ ∃ k, k < n ∧ failsAt k s := by
  induction n with
  | zero => exact .inl fun j hj => absurd hj (by omega)
  | succ n ih =>
    rcases ih with h | ⟨k, hk, h⟩
    · cases ha : s.answerAt n
      · refine .inl fun j hj => ?_
        rcases Nat.lt_succ_iff_lt_or_eq.mp hj with hj | rfl
        · exact h j hj
        · exact ha
      · exact .inr ⟨n, by omega, h, ha⟩
    · exact .inr ⟨k, by omega, h⟩

/-! ### The transmit loop -/

/-- The chain after a list of transactions that were all `Ok`, from draw `d`. -/
def latchAll (n : Nat) : List SlotMap → Nat → Vector ModuleRegs 256 → Vector ModuleRegs 256
  | [], _, regs => regs
  | S :: T, d, regs => latchAll n T (d + 1) (latchFrame d (buildFrame n S) regs)

theorem sendTxns_cons_ok {n : Nat} {S : SlotMap} {T : List SlotMap} {s : State} (h : s.answerAt 0 = .ok) :
    sendTxns n (S :: T) s =
      ⟨(sendTxns n T (transmit (buildFrame n S) s)).answer, (sendTxns n T (transmit (buildFrame n S) s)).count + 1,
        (sendTxns n T (transmit (buildFrame n S) s)).state⟩ := by
  rw [← nextAnswer_eq_answerAt] at h
  simp [sendTxns, h]

theorem sendTxns_cons_err {n : Nat} {S : SlotMap} {T : List SlotMap} {s : State} (h : s.answerAt 0 = .err) :
    sendTxns n (S :: T) s = ⟨.err, 0, transmit (buildFrame n S) s⟩ := by
  rw [← nextAnswer_eq_answerAt] at h
  simp [sendTxns, h]

/-- Every transaction `Ok`: all of them are sent, and counted (40_protocol R107). -/
theorem sendTxns_ok (n : Nat) (T : List SlotMap) (s : State) (h : okFor T.length s) :
    sendTxns n T s = ⟨.ok, T.length, { s with
      answers := s.answers.drop T.length
      busLog := s.busLog ++ okTransactions (T.map (buildFrame n))
      chain := latchAll n T s.draws s.chain
      draws := s.draws + T.length }⟩ := by
  induction T generalizing s with
  | nil => simp [sendTxns, okTransactions, latchAll]
  | cons S T ih =>
    have h0 := h 0 (by simp)
    rw [sendTxns_cons_ok h0, ih _ (okFor_transmit h _)]
    rw [← nextAnswer_eq_answerAt] at h0
    simp [transmit, h0, okTransactions, latchAll, Nat.add_assoc, Nat.add_comm 1 T.length]

/-- The first `Err` at transaction `k`: the `k` before it and the failing one are in the log, nothing after it is sent,
and the chain is unknown (40_protocol R107, R104). -/
theorem sendTxns_err (n : Nat) (T : List SlotMap) (s : State) (k : Nat) (hk : k < T.length) (h : failsAt k s) :
    sendTxns n T s = ⟨.err, k, { s with
      answers := s.answers.drop (k + 1)
      busLog := s.busLog ++ okTransactions ((T.take k).map (buildFrame n)) ++ [⟨buildFrame n T[k], .err⟩]
      chain := unknownChain (s.draws + k)
      draws := s.draws + k + 1 }⟩ := by
  induction T generalizing s k with
  | nil => simp at hk
  | cons S T ih =>
    cases k with
    | zero =>
      have h0 := h.2
      rw [sendTxns_cons_err h0]
      rw [← nextAnswer_eq_answerAt] at h0
      simp [transmit, h0, okTransactions]
    | succ k =>
      have h0 := h.1 0 (by omega)
      rw [sendTxns_cons_ok h0, ih _ k (by simpa using hk) (failsAt_transmit h _)]
      rw [← nextAnswer_eq_answerAt] at h0
      simp [transmit, h0, okTransactions, Nat.add_assoc, Nat.add_comm 1 k]

/-- All a transmit loop can do. -/
theorem sendTxns_cases (n : Nat) (T : List SlotMap) (s : State) :
    (okFor T.length s ∧ (sendTxns n T s).answer = .ok ∧ (sendTxns n T s).count = T.length ∧
      (sendTxns n T s).state.busLog = s.busLog ++ okTransactions (T.map (buildFrame n)) ∧
      (sendTxns n T s).state.chain = latchAll n T s.draws s.chain) ∨
    (∃ k, ∃ hk : k < T.length, failsAt k s ∧ (sendTxns n T s).answer = .err ∧ (sendTxns n T s).count = k ∧
      (sendTxns n T s).state.busLog =
        s.busLog ++ okTransactions ((T.take k).map (buildFrame n)) ++ [⟨buildFrame n T[k], .err⟩] ∧
      (sendTxns n T s).state.chain = unknownChain (s.draws + k)) := by
  rcases okFor_or_failsAt T.length s with h | ⟨k, hk, h⟩
  · exact .inl ⟨h, by simp [sendTxns_ok n T s h]⟩
  · exact .inr ⟨k, hk, h, by simp [sendTxns_err n T s k hk h]⟩

/-- A transmit loop changes only the answers to come, the bus log, the chain and the counter of draws. -/
theorem sendTxns_onlySent (n : Nat) (T : List SlotMap) (s : State) : onlySent s (sendTxns n T s).state := by
  induction T generalizing s with
  | nil => rfl
  | cons S T ih =>
    cases h : s.answerAt 0
    · rw [sendTxns_cons_ok h]
      have := ih (transmit (buildFrame n S) s)
      simp only [onlySent] at this ⊢
      rw [this]; rfl
    · rw [sendTxns_cons_err h]; rfl

/-- The registers of the module at `p` after a list of transactions that were all `Ok`: it takes its group of each, in
order (40_protocol R104, 20_memory R64). -/
theorem chainAt_latchAll {n : Nat} (T : List SlotMap) (d : Nat) (regs : Vector ModuleRegs 256) {p : Nat} (h : p < 256)
    (hp : p < n) :
    chainAt (latchAll n T d regs) p =
      (T.foldl (fun x S => (x.1 + 1,
        writeReg x.1 p ((S.at p).getD noopGroup).addr ((S.at p).getD noopGroup).value x.2)) (d, chainAt regs p)).2 := by
  induction T generalizing d regs with
  | nil => rfl
  | cons S T ih => rw [latchAll, ih, chainAt_latch_buildFrame d S regs h hp, List.foldl_cons]

/-! ### A module taking a group -/

/-- All that a group can change: the chain and the counter of draws (40_protocol R105). -/
theorem moduleTakes_frame (a : BitVec 4) (v : Byte) (s : State) :
    ∃ regs d, moduleTakes a v s = { s with chain := regs, draws := d } := by
  unfold moduleTakes
  split
  · exact ⟨s.chain, s.draws, rfl⟩
  · exact ⟨_, _, rfl⟩

/-- The registers after the module at position `i` was given the registers `regs`. -/
theorem reg_set (s : State) (i : Fin 256) (regs : ModuleRegs) (d q : Nat) (b : BitVec 4) :
    State.reg { s with chain := s.chain.set i.val regs i.isLt, draws := d } q b =
      if q = i.val then regAt regs b else s.reg q b := by
  unfold State.reg
  simp only [chainAt_set]
  split <;> rfl

/-! ### The ends of a command -/

theorem endSend_ok {r : Sent} (h : r.answer = .ok) (data : BitVec 28) : endSend data r = finish data r.state := by
  simp [endSend, h]

theorem endSend_err {r : Sent} (h : r.answer = .err) (data : BitVec 28) :
    endSend data r = raise .transportError (countData r.count) r.state := by
  simp [endSend, h]

/-- A command that sends ends in a next state, whatever the transport answers. -/
theorem endSend_next (data : BitVec 28) (r : Sent) : ∃ w, endSend data r = .next { r.state with result := w } := by
  cases h : r.answer
  · exact ⟨_, endSend_ok h data⟩
  · exact ⟨_, endSend_err h data⟩

/-- All that sending one frame can do (40_protocol R110, R125, R130). -/
theorem sendSingle_cases (f : List Byte) (s : State) :
    (s.nextAnswer = .ok ∧ sendSingle f s = finish 1 (transmit f s)) ∨
      (s.nextAnswer = .err ∧ sendSingle f s = raise .transportError 0 (transmit f s)) := by
  cases h : s.nextAnswer <;> simp [sendSingle, h]

@[simp] theorem raise_eq (st : Status) (data : BitVec 28) (s : State) :
    raise st data s = .next { s with result := resultWord st data } := rfl

@[simp] theorem finish_eq (data : BitVec 28) (s : State) :
    finish data s = .next { s with result := resultWord .ok data } := rfl

end Sys2Proof.Machine
end

