-- ==== Sys2Proof/Laws/Meanings.lean ====
section
/-! SUPPORT. What the meanings send, in the words of the statements, and the check of INIT. -/

namespace Sys2Proof.Machine

/-- A frame, by the group of each position. -/
theorem buildFrame_eq {n : Nat} {S : SlotMap} {f : Nat → List Byte}
    (h : ∀ p, p < n → ((S.at p).getD noopGroup).bytes = f p) :
    buildFrame n S = (List.range n).flatMap fun i => f (n - 1 - i) :=
  List.flatMap_congr fun i hi => h _ (by have := List.mem_range.mp hi; omega)

theorem buildFrame_oneSlot (n p : Nat) (a : BitVec 4) (v : Byte) :
    buildFrame n (oneSlot p ⟨a, v⟩) = frameForOne n p a v := by
  refine buildFrame_eq (f := fun q => if q = p then [a.setWidth 8, v] else [0x00, 0x00]) fun q _ => ?_
  rw [oneSlot_at]
  split <;> rfl

theorem frameOne_eq (n p : Nat) (a : BitVec 4) (v : Byte) : frameOne n p a v = frameForOne n p a v :=
  buildFrame_oneSlot n p a v

theorem frameAll_eq (n : Nat) (a : BitVec 4) (v : Byte) : frameAll n a v = frameForEvery n a v := by
  refine buildFrame_eq (f := fun _ => [a.setWidth 8, v]) fun q hq => ?_
  rw [allSlots_at, if_pos hq]
  rfl

theorem initFrames_eq (n : Nat) : (initSeq n).map (buildFrame n) = initFrames n := by
  simp [initSeq, initFrames, initGroups, List.map_flatMap, buildFrame_oneSlot]

theorem rowSlots_at (s : State) (pr q : Nat) :
    (rowSlots s pr).at q =
      if q < s.count then some ⟨BitVec.ofNat 4 (pr + 1), Memory.read (8 * q + pr) s.fb⟩ else none :=
  rangeSlots_at _ _ fun p => ⟨BitVec.ofNat 4 (pr + 1), Memory.read (8 * p + pr) s.fb⟩

theorem buildFrame_rowSlots (s : State) {pr : Nat} (h : pr < 8) :
    buildFrame s.count (rowSlots s pr) = frameForRow s pr := by
  refine buildFrame_eq (f := fun q => [BitVec.ofNat 8 (pr + 1), Memory.read (8 * q + pr) s.fb]) fun q hq => ?_
  have : (BitVec.ofNat 4 (pr + 1)).setWidth 8 = BitVec.ofNat 8 (pr + 1) := by
    apply BitVec.eq_of_toNat_eq
    simp
    omega
  rw [rowSlots_at, if_pos hq]
  simp [Group.bytes, this]

/-- INIT's check says what 41_config_init R145 says. -/
theorem validConfig_iff (s : State) : s.validConfig = true ↔ ValidStaging s := by
  simp only [State.validConfig, Bool.and_eq_true, bne_iff_ne, ne_eq, decide_eq_true_eq, State.stagedOrder, List.all_map,
    List.all_eq_true, List.mem_range, List.pairwise_map, Function.comp_apply, ValidStaging]
  rw [and_assoc]
  refine and_congr ?_ (and_congr Iff.rfl ?_)
  · rw [not_iff_not]
    exact ⟨fun h => BitVec.eq_of_toNat_eq h, fun h => by rw [h]; rfl⟩
  · rw [List.pairwise_iff_getElem]
    constructor
    · intro h m k hmk hk e
      exact h m k (by simp; omega) (by simpa using hk) hmk (by simp [e])
    · intro h i j hi hj hij e
      simp at hi hj
      exact h i j hij hj (by simpa using BitVec.eq_of_toNat_eq (by simpa using e))

/-- INIT of a valid configuration: the commits, then the initialization sequence. -/
theorem execInit_valid {s : State} (h : ValidStaging s) :
    execInit s = endSend (countData (sendTxns s.stgN.toNat (initSeq s.stgN.toNat) (commitConfig s)).count)
      (sendTxns s.stgN.toNat (initSeq s.stgN.toNat) (commitConfig s)) := by
  rw [← validConfig_iff] at h
  simp only [execInit, if_pos h]

theorem execInit_invalid {s : State} (h : ¬ ValidStaging s) : execInit s = raise .configError 0 s := by
  rw [← validConfig_iff] at h
  simp only [execInit, if_neg h]

/-- The commits send nothing, so the transport's answers are as before. -/
theorem answerAt_commitConfig (s : State) (k : Nat) : (commitConfig s).answerAt k = s.answerAt k := rfl

/-- Sending one frame: a next state, the frame in the bus log with its answer, and the result of that answer. -/
theorem sendSingle_next (f : List Byte) (s : State) :
    ∃ t, sendSingle f s = .next t ∧ onlySent s t ∧ t.busLog = s.busLog ++ [⟨f, s.answerAt 0⟩] ∧
      t.result = (match s.answerAt 0 with | .ok => 0x00000001 | .err => 0x30000000) := by
  rw [← nextAnswer_eq_answerAt]
  rcases sendSingle_cases f s with ⟨h, e⟩ | ⟨h, e⟩ <;> rw [e, h] <;> refine ⟨_, rfl, rfl, ?_, rfl⟩ <;> simp [h]

end Sys2Proof.Machine
end

