-- ==== Sys2Proof/Laws/Memory.lean ====
section
/-! SUPPORT. The laws of the Frame Buffer memory: a read after a write, and the canonical form kept. -/

namespace Sys2Proof.Machine

variable {a b n : Nat} {v w : Byte} {m : Memory}

@[simp] theorem Memory.read_nil : Memory.read a [] = Memory.unlisted := rfl

theorem Memory.read_cons : Memory.read a ((b, w) :: m) = if a = b then w else Memory.read a m := rfl

/-- An address below every listed one reads as unlisted. -/
theorem Memory.read_of_lt (h : ∀ x ∈ m, a < x.1) : Memory.read a m = Memory.unlisted := by
  induction m with
  | nil => rfl
  | cons x m ih =>
    obtain ⟨b, w⟩ := x
    have hb : a < b := h (b, w) (by simp)
    rw [Memory.read_cons, if_neg (by omega)]
    exact ih fun y hy => h y (by simp [hy])

theorem Memory.mem_list {x : Host.Cell} : x ∈ Memory.list a v m ↔ (x = (a, v) ∧ v ≠ Memory.unlisted) ∨ x ∈ m := by
  unfold Memory.list; split <;> simp_all

/-- What a write lists: the written cell, or a cell that was listed at another address. -/
theorem Memory.mem_write {x : Host.Cell} (h : x ∈ Memory.write a v m) : x = (a, v) ∨ x ∈ m := by
  induction m with
  | nil => rcases Memory.mem_list.mp h with h | h <;> simp_all
  | cons y m ih =>
    obtain ⟨b, w⟩ := y
    simp only [Memory.write] at h
    split at h
    · rcases Memory.mem_list.mp h with h | h <;> simp_all
    split at h
    · rcases Memory.mem_list.mp h with h | h
      · exact .inl h.1
      · exact .inr (by simp [h])
    rcases List.mem_cons.mp h with h | h
    · exact .inr (by simp [h])
    rcases ih h with h | h
    · exact .inl h
    · exact .inr (by simp [h])

theorem Memory.list_wf (hm : Memory.wf m) (h : ∀ x ∈ m, a < x.1) : Memory.wf (Memory.list a v m) := by
  unfold Memory.list
  split
  · exact hm
  · next hv =>
    refine ⟨List.pairwise_cons.mpr ⟨h, hm.1⟩, fun x hx => ?_⟩
    rcases List.mem_cons.mp hx with rfl | hx
    · exact hv
    · exact hm.2 x hx

theorem Memory.wf_tail {x : Host.Cell} (h : Memory.wf (x :: m)) : Memory.wf m :=
  ⟨(List.pairwise_cons.mp h.1).2, fun y hy => h.2 y (by simp [hy])⟩

theorem Memory.wf_head {x y : Host.Cell} (h : Memory.wf (x :: m)) (hy : y ∈ m) : x.1 < y.1 :=
  (List.pairwise_cons.mp h.1).1 y hy

/-- A write keeps the canonical form. -/
theorem Memory.write_wf (hm : Memory.wf m) : Memory.wf (Memory.write a v m) := by
  induction m with
  | nil => exact Memory.list_wf hm (by simp)
  | cons y m ih =>
    obtain ⟨b, w⟩ := y
    have ht := Memory.wf_tail hm
    simp only [Memory.write]
    split
    · next h =>
      refine Memory.list_wf hm fun x hx => ?_
      rcases List.mem_cons.mp hx with rfl | hx
      · exact h
      · exact Nat.lt_trans h (Memory.wf_head hm hx)
    split
    · next h => subst h; exact Memory.list_wf ht fun x hx => Memory.wf_head hm hx
    next h1 h2 =>
    have hw := ih ht
    refine ⟨List.pairwise_cons.mpr ⟨fun x hx => ?_, hw.1⟩, fun x hx => ?_⟩
    · rcases Memory.mem_write hx with rfl | hx
      · show b < a; omega
      · exact Memory.wf_head hm hx
    · rcases List.mem_cons.mp hx with rfl | hx
      · exact hm.2 _ (by simp)
      · exact hw.2 x hx

theorem Memory.read_list (h : ∀ x ∈ m, a < x.1) :
    Memory.read b (Memory.list a v m) = if b = a then v else Memory.read b m := by
  unfold Memory.list
  split
  · next hv =>
    split
    · next hb => rw [hb, Memory.read_of_lt h, hv]
    · rfl
  · exact Memory.read_cons

/-- A read after a write, in one law: the written byte at its own address, the old byte at every other one. -/
theorem Memory.read_write (hm : Memory.wf m) :
    Memory.read b (Memory.write a v m) = if b = a then v else Memory.read b m := by
  induction m with
  | nil => exact Memory.read_list (by simp)
  | cons y m ih =>
    obtain ⟨c', w⟩ := y
    have ht := Memory.wf_tail hm
    simp only [Memory.write]
    split
    · next h =>
      refine Memory.read_list fun x hx => ?_
      rcases List.mem_cons.mp hx with rfl | hx
      · exact h
      · exact Nat.lt_trans h (Memory.wf_head hm hx)
    split
    · next h =>
      subst h
      rw [Memory.read_list fun x hx => Memory.wf_head hm hx, Memory.read_cons]
      split <;> simp_all
    · rw [Memory.read_cons, Memory.read_cons, ih ht]
      by_cases h : b = c' <;> by_cases h2 : b = a <;> simp_all

theorem Memory.foldl_write_zero_wf (l : List Nat) (hm : Memory.wf m) :
    Memory.wf (l.foldl (fun m a => Memory.write a 0x00 m) m) := by
  induction l generalizing m with
  | nil => exact hm
  | cons a l ih => exact ih (Memory.write_wf hm)

/-- Clearing keeps the canonical form. -/
theorem Memory.clear_wf (hm : Memory.wf m) : Memory.wf (Memory.clear n m) := Memory.foldl_write_zero_wf _ hm

theorem Memory.foldl_write_zero_read (l : List Nat) (hm : Memory.wf m) :
    Memory.read b (l.foldl (fun m a => Memory.write a 0x00 m) m) = if b ∈ l then 0x00 else Memory.read b m := by
  induction l generalizing m with
  | nil => simp
  | cons a l ih =>
    rw [List.foldl_cons, ih (Memory.write_wf hm), Memory.read_write hm]
    by_cases h : b ∈ l <;> by_cases h2 : b = a <;> simp_all

/-- Clearing below `n`: 0x00 there, the old byte elsewhere. -/
theorem Memory.read_clear (hm : Memory.wf m) :
    Memory.read b (Memory.clear n m) = if b < n then 0x00 else Memory.read b m := by
  rw [Memory.clear, Memory.foldl_write_zero_read _ hm]; simp only [List.mem_range]

theorem Memory.mem_of_mem_foldl {x : Host.Cell} (l : List Nat)
    (h : x ∈ l.foldl (fun m a => Memory.write a 0x00 m) m) : x ∈ m ∨ x.2 = 0x00 := by
  induction l generalizing m with
  | nil => exact .inl h
  | cons a l ih =>
    rcases ih h with h | h
    · rcases Memory.mem_write h with rfl | h
      · exact .inr rfl
      · exact .inl h
    · exact .inr h

/-- Clearing lists no new cell. -/
theorem Memory.mem_clear {x : Host.Cell} (hm : Memory.wf m) (h : x ∈ Memory.clear n m) : x ∈ m := by
  rcases Memory.mem_of_mem_foldl _ h with h' | h'
  · exact h'
  · exact absurd h' ((Memory.clear_wf hm).2 x h)

end Sys2Proof.Machine
end

