-- ==== Sys2Proof/Laws/Exec.lean ====
section
/-! SUPPORT. All that a command can do, said once: it ends in an error that writes RESULT only, or it changes the block and
sends nothing, or it sends a list of transactions. -/

namespace Sys2Proof.Machine

/-- What a command that sends nothing does to the state before it writes RESULT. -/
def quietEffect (i : Instr) (s : State) : State :=
  match i with
  | .cfgCount n => { s with stgN := BitVec.ofNat 8 n }
  | .cfgModule m p o =>
    { s with
      stgOrder := s.stgOrder.setIfInBounds m (BitVec.ofNat 8 p)
      stgOrient := s.stgOrient.setIfInBounds m o }
  | .batchPut p a v => { s with batch := s.batch ++ [⟨BitVec.ofNat 8 p, a, v⟩] }
  | .setPixel m r c on =>
    rowWrite (lmap s m r c).rowAddress
      (setCell (Memory.read (lmap s m r c).rowAddress s.fb) (lmap s m r c).pc on) s
  | .clear => { s with fb := Memory.clear (8 * s.count) s.fb }
  | _ => s

/-- The state from which a sending command sends. -/
def sendBase (i : Instr) (s : State) : State :=
  match i with
  | .init => commitConfig s
  | .batchSend => { s with batch := [] }
  | _ => s

/-- The slot maps a sending command sends. -/
def sendMaps (i : Instr) (s : State) : List SlotMap :=
  match i with
  | .init => initSeq s.stgN.toNat
  | .sendOne p a v => [oneSlot p ⟨a, v⟩]
  | .batchSend => partition s.batch
  | .setIntensity v => [allSlots s.count ⟨0xA, BitVec.ofNat 8 v⟩]
  | .setTestMode b => [allSlots s.count ⟨0xF, (BitVec.ofBool b).setWidth 8⟩]
  | .flush => (List.range 8).map (rowSlots s)
  | _ => []

/-- The transmit loop of a sending command. -/
def sendLoop (i : Instr) (s : State) : Sent := sendTxns (sendBase i s).count (sendMaps i s) (sendBase i s)

/-- What a command may be doing besides failing a check: what it has passed when it is done. -/
def passed (i : Instr) (s : State) : Prop :=
  match i with
  | .cfgCount _ | .cfgModule _ _ _ => True
  | .init => ValidStaging s
  | .sendOne p _ _ => s.mode = .configured ∧ p < s.count
  | .batchPut p _ _ => s.mode = .configured ∧ p < s.count ∧ s.batch.length ≠ Config.batchMax
  | .batchSend | .setTestMode _ | .clear | .flush => s.mode = .configured
  | .setIntensity v => s.mode = .configured ∧ v ≤ 15
  | .setPixel m r c _ | .getPixel m r c => s.mode = .configured ∧ validPixel s m r c ∧
      (lmap s m r c).rowAddress < 8 * s.count
  | .map m r c => s.mode = .configured ∧ validPixel s m r c
  | _ => True

/-- How a command answers a next state `t`. -/
inductive CommandEnds (i : Instr) (s t : State) : Prop where
  /-- A check failed: RESULT only. -/
  | failed (st : Status) (hst : st = .notInitialized ∨ st = .outOfRange ∨ (st = .configError ∧ i = .init))
      (h : t = { s with result := resultWord st 0 })
  /-- Nothing to send. -/
  | quiet (hi : i.transmits = false) (hp : passed i s) (d : BitVec 28)
      (h : t = { quietEffect i s with result := resultWord .ok d })
  /-- Every transaction was answered `Ok`. -/
  | sent (hi : i.transmits = true) (hp : passed i s) (ha : okFor (sendMaps i s).length (sendBase i s))
      (h : t = { (sendLoop i s).state with result := resultWord .ok (countData (sendMaps i s).length) })
  /-- Transaction `k` was answered `Err`. -/
  | stopped (hi : i.transmits = true) (hp : passed i s) (k : Nat) (hk : k < (sendMaps i s).length)
      (ha : failsAt k (sendBase i s))
      (h : t = { (sendLoop i s).state with result := resultWord .transportError (countData k) })

theorem endSend_ends {i : Instr} {s t : State} {d : BitVec 28} (hi : i.transmits = true) (hp : passed i s)
    (hd : okFor (sendMaps i s).length (sendBase i s) → d = countData (sendMaps i s).length)
    (h : endSend d (sendLoop i s) = .next t) : CommandEnds i s t := by
  rcases okFor_or_failsAt (sendMaps i s).length (sendBase i s) with ha | ⟨k, hk, ha⟩
  · have e := sendTxns_ok (sendBase i s).count (sendMaps i s) (sendBase i s) ha
    rw [endSend_ok (by rw [sendLoop, e]), finish_eq, Host.Outcome.next.injEq] at h
    exact .sent hi hp ha (by rw [← h, hd ha])
  · have e := sendTxns_err (sendBase i s).count (sendMaps i s) (sendBase i s) k hk ha
    rw [endSend_err (by rw [sendLoop, e]), raise_eq, Host.Outcome.next.injEq] at h
    have hc : (sendLoop i s).count = k := by rw [sendLoop, e]
    exact .stopped hi hp k hk ha (by rw [← h, hc])

theorem sendSingle_ends {i : Instr} {s t : State} {S : SlotMap} (hi : i.transmits = true) (hp : passed i s)
    (hb : sendBase i s = s) (hS : sendMaps i s = [S]) (h : sendSingle (buildFrame s.count S) s = .next t) :
    CommandEnds i s t := by
  have hl : sendLoop i s = sendTxns s.count [S] s := by rw [sendLoop, hb, hS]
  rcases sendSingle_cases (buildFrame s.count S) s with ⟨ha, e⟩ | ⟨ha, e⟩ <;> rw [e] at h <;>
    rw [nextAnswer_eq_answerAt] at ha
  · refine .sent hi hp (by rw [hS, hb]; intro j hj; rw [show j = 0 by simpa using hj]; exact ha) ?_
    rw [finish_eq, Host.Outcome.next.injEq] at h
    rw [hl, sendTxns_cons_ok ha, ← h, hS]
    rfl
  · refine .stopped hi hp 0 (by simp [hS]) (by rw [hb]; exact ⟨fun j hj => absurd hj (by omega), ha⟩) ?_
    rw [raise_eq, Host.Outcome.next.injEq] at h
    rw [hl, sendTxns_cons_err ha, ← h]
    rfl

/-- A pixel command past its checks, by whether the row address exists. -/
theorem rowRead_cases (a : Nat) (s : State) :
    (a < 8 * s.count ∧ rowRead a s = some (Memory.read a s.fb)) ∨ (8 * s.count ≤ a ∧ rowRead a s = none) := by
  by_cases h : a < 8 * s.count
  · exact .inl ⟨h, by simp [rowRead, h]⟩
  · exact .inr ⟨by omega, by simp [rowRead, h]⟩

/-- All that a command can do. -/
theorem exec_command_ends {i : Instr} {s t : State} (hc : i.isCommand = true) (h : exec i s = .next t) :
    CommandEnds i s t := by
  cases i <;> simp only [Instr.isCommand, Bool.false_eq_true] at hc <;> simp only [exec] at h
  case cfgCount n => cases h; exact .quiet rfl trivial 0 rfl
  case cfgModule m p o => cases h; exact .quiet rfl trivial 0 rfl
  case init =>
    by_cases hv : ValidStaging s
    · rw [execInit_valid hv] at h
      exact endSend_ends rfl hv (fun ha => by
        show countData (sendLoop .init s).count = _
        rw [sendLoop, sendTxns_ok _ _ _ ha]) h
    · rw [execInit_invalid hv] at h
      cases h
      exact .failed .configError (.inr (.inr ⟨rfl, rfl⟩)) rfl
  case sendOne p a v =>
    rcases configuredOnly_cases s (checkPosition p s (sendSingle (frameOne s.count p a v) s)) with ⟨_, e⟩ | ⟨hm, e⟩ <;>
      rw [execSendOne, e] at h
    · cases h; exact .failed .notInitialized (.inl rfl) rfl
    by_cases hp : s.count ≤ p
    · rw [checkPosition_of_le hp] at h
      cases h
      exact .failed .outOfRange (.inr (.inl rfl)) rfl
    · rw [checkPosition_of_lt (by omega)] at h
      exact sendSingle_ends rfl ⟨hm, by omega⟩ rfl rfl h
  case batchPut p a v =>
    unfold execBatchPut at h
    cases hm : s.mode
    · rw [configuredOnly_unconfigured hm] at h
      cases h
      exact .failed .notInitialized (.inl rfl) rfl
    rw [configuredOnly_configured hm] at h
    by_cases hp : s.count ≤ p
    · rw [checkPosition_of_le hp] at h
      cases h
      exact .failed .outOfRange (.inr (.inl rfl)) rfl
    rw [checkPosition_of_lt (by omega)] at h
    split at h
    · cases h; exact .failed .outOfRange (.inr (.inl rfl)) rfl
    · next hb => cases h; exact .quiet rfl ⟨hm, by omega, hb⟩ _ rfl
  case batchSend =>
    unfold execBatchSend at h
    cases hm : s.mode
    · rw [configuredOnly_unconfigured hm] at h
      cases h
      exact .failed .notInitialized (.inl rfl) rfl
    rw [configuredOnly_configured hm] at h
    exact endSend_ends (i := .batchSend) rfl hm (fun ha => by
      show countData (sendLoop .batchSend s).count = _
      rw [sendLoop, sendTxns_ok _ _ _ ha]) h
  case setIntensity v =>
    unfold execSetIntensity at h
    cases hm : s.mode
    · rw [configuredOnly_unconfigured hm] at h
      cases h
      exact .failed .notInitialized (.inl rfl) rfl
    rw [configuredOnly_configured hm] at h
    split at h
    · cases h; exact .failed .outOfRange (.inr (.inl rfl)) rfl
    · exact sendSingle_ends (i := .setIntensity v) rfl ⟨hm, by omega⟩ rfl rfl h
  case setTestMode b =>
    unfold execSetTestMode at h
    cases hm : s.mode
    · rw [configuredOnly_unconfigured hm] at h
      cases h
      exact .failed .notInitialized (.inl rfl) rfl
    rw [configuredOnly_configured hm] at h
    exact sendSingle_ends (i := .setTestMode b) rfl hm rfl rfl h
  case setPixel m r c on =>
    unfold execSetPixel at h
    rcases checkPix_cases m r c s _ with ⟨_, e⟩ | ⟨_, _, e⟩ | ⟨hm, hv, e⟩ <;> rw [e] at h
    · cases h; exact .failed .notInitialized (.inl rfl) rfl
    · cases h; exact .failed .outOfRange (.inr (.inl rfl)) rfl
    · rcases rowRead_cases (lmap s m r c).rowAddress s with ⟨ha, e⟩ | ⟨_, e⟩ <;> simp only [e] at h
      · cases h; exact .quiet rfl ⟨hm, hv, ha⟩ 0 rfl
      · cases h
  case getPixel m r c =>
    unfold execGetPixel at h
    rcases checkPix_cases m r c s _ with ⟨_, e⟩ | ⟨_, _, e⟩ | ⟨hm, hv, e⟩ <;> rw [e] at h
    · cases h; exact .failed .notInitialized (.inl rfl) rfl
    · cases h; exact .failed .outOfRange (.inr (.inl rfl)) rfl
    · rcases rowRead_cases (lmap s m r c).rowAddress s with ⟨ha, e⟩ | ⟨_, e⟩ <;> simp only [e] at h
      · cases h; exact .quiet rfl ⟨hm, hv, ha⟩ _ rfl
      · cases h
  case clear =>
    unfold execClear at h
    cases hm : s.mode
    · rw [configuredOnly_unconfigured hm] at h
      cases h
      exact .failed .notInitialized (.inl rfl) rfl
    · rw [configuredOnly_configured hm] at h
      cases h
      exact .quiet rfl hm 0 rfl
  case flush =>
    unfold execFlush at h
    cases hm : s.mode
    · rw [configuredOnly_unconfigured hm] at h
      cases h
      exact .failed .notInitialized (.inl rfl) rfl
    · rw [configuredOnly_configured hm] at h
      exact endSend_ends (i := .flush) rfl hm (fun _ => rfl) h
  case map m r c =>
    unfold execMap at h
    rcases checkPix_cases m r c s _ with ⟨_, e⟩ | ⟨_, _, e⟩ | ⟨hm, hv, e⟩ <;> rw [e] at h
    · cases h; exact .failed .notInitialized (.inl rfl) rfl
    · cases h; exact .failed .outOfRange (.inr (.inl rfl)) rfl
    · cases h; exact .quiet rfl ⟨hm, hv⟩ _ rfl

/-- All that a group can do: the module at `groupPos` takes it. -/
theorem exec_group_eq {i : Instr} (hc : i.isCommand = false) : ∃ a v, ∀ s, exec i s = .next (moduleTakes a v s) := by
  cases i <;> simp only [Instr.isCommand, Bool.true_eq_false] at hc
  all_goals exact ⟨_, _, fun _ => rfl⟩

/-- A transmit loop of a sending command changes only what sending changes, from its base. -/
theorem sendLoop_onlySent (i : Instr) (s : State) : onlySent (sendBase i s) (sendLoop i s).state :=
  sendTxns_onlySent _ _ _

end Sys2Proof.Machine
end

