-- ==== Sys2Proof/Laws/PerInstr.lean ====
section
/-! SUPPORT. Laws stated for every instruction, one lemma for each constructor of `Instr`. The family `TableRow`: the
word an instruction encodes to has the match of its row of spec/opcode_table.json under the row's mask. -/

namespace Sys2Proof.Laws.TableRow

/-- The match and the mask of an instruction's row of spec/opcode_table.json. -/
def row : Instr → Nat × Nat
  | .cfgCount _ => (0x10000000, 0xFFFFFF00)
  | .cfgModule _ _ _ => (0x20000000, 0xFF0000F0)
  | .init => (0x30000000, 0xFFFFFFFF)
  | .sendOne _ _ _ => (0x40000000, 0xF000FF00)
  | .batchPut _ _ _ => (0x50000000, 0xF000FF00)
  | .batchSend => (0x60000000, 0xFFFFFFFF)
  | .setIntensity _ => (0x70000000, 0xFFFFFF00)
  | .setTestMode _ => (0x80000000, 0xFFFFFFFE)
  | .setPixel _ _ _ _ => (0x90000000, 0xFE000000)
  | .getPixel _ _ _ => (0xA0000000, 0xFF000000)
  | .clear => (0xB0000000, 0xFFFFFFFF)
  | .flush => (0xC0000000, 0xFFFFFFFF)
  | .map _ _ _ => (0xD0000000, 0xFF000000)
  | .max7219Noop _ => (0x0000, 0xFF00)
  | .max7219Digit0 _ => (0x0100, 0xFF00)
  | .max7219Digit1 _ => (0x0200, 0xFF00)
  | .max7219Digit2 _ => (0x0300, 0xFF00)
  | .max7219Digit3 _ => (0x0400, 0xFF00)
  | .max7219Digit4 _ => (0x0500, 0xFF00)
  | .max7219Digit5 _ => (0x0600, 0xFF00)
  | .max7219Digit6 _ => (0x0700, 0xFF00)
  | .max7219Digit7 _ => (0x0800, 0xFF00)
  | .max7219DecodeMode _ => (0x0900, 0xFF00)
  | .max7219Intensity _ => (0x0A00, 0xFF00)
  | .max7219ScanLimit _ => (0x0B00, 0xFF00)
  | .max7219Shutdown _ => (0x0C00, 0xFF00)
  | .max7219AddrD _ => (0x0D00, 0xFF00)
  | .max7219AddrE _ => (0x0E00, 0xFF00)
  | .max7219DisplayTest _ => (0x0F00, 0xFF00)

/-- The word of `i` is a word of its row. -/
def Statement (i : Instr) : Prop :=
  match encode i with
  | .command w => w &&& BitVec.ofNat 32 (row i).2 = BitVec.ofNat 32 (row i).1
  | .group w => w &&& BitVec.ofNat 16 (row i).2 = BitVec.ofNat 16 (row i).1

theorem cfgCount (n : Nat) : Statement (.cfgCount n) :=
  (selectsCfgCount (wordB 1 n)).mpr (by simp)

theorem cfgModule (m : Nat) (p : Nat) (o : BitVec 4) : Statement (.cfgModule m p o) :=
  (selectsCfgModule (wordM 2 m p o)).mpr (by simp)

theorem init : Statement (.init) :=
  (selectsInit (wordZ 3)).mpr (by simp)

theorem sendOne (p : Nat) (a : BitVec 4) (v : Byte) : Statement (.sendOne p a v) :=
  (selectsSendOne (wordS 4 p a v)).mpr (by simp)

theorem batchPut (p : Nat) (a : BitVec 4) (v : Byte) : Statement (.batchPut p a v) :=
  (selectsBatchPut (wordS 5 p a v)).mpr (by simp)

theorem batchSend : Statement (.batchSend) :=
  (selectsBatchSend (wordZ 6)).mpr (by simp)

theorem setIntensity (v : Nat) : Statement (.setIntensity v) :=
  (selectsSetIntensity (wordB 7 v)).mpr (by simp)

theorem setTestMode (b : Bool) : Statement (.setTestMode b) :=
  (selectsSetTestMode (wordT 8 b)).mpr (by simp)

theorem setPixel (m : Nat) (r : Nat) (c : Nat) (on : Bool) : Statement (.setPixel m r c on) :=
  (selectsSetPixel (wordP 9 on m r c)).mpr (by simp)

theorem getPixel (m : Nat) (r : Nat) (c : Nat) : Statement (.getPixel m r c) :=
  (selectsGetPixel (wordP 10 false m r c)).mpr (by simp)

theorem clear : Statement (.clear) :=
  (selectsClear (wordZ 11)).mpr (by simp)

theorem flush : Statement (.flush) :=
  (selectsFlush (wordZ 12)).mpr (by simp)

theorem map (m : Nat) (r : Nat) (c : Nat) : Statement (.map m r c) :=
  (selectsMap (wordP 13 false m r c)).mpr (by simp)

theorem max7219Noop (v : Byte) : Statement (.max7219Noop v) := by
  show wordG 0x0 v &&& 0xFF00#16 = 0x0000#16
  revert v; decide

theorem max7219Digit0 (v : Byte) : Statement (.max7219Digit0 v) := by
  show wordG 0x1 v &&& 0xFF00#16 = 0x0100#16
  revert v; decide

theorem max7219Digit1 (v : Byte) : Statement (.max7219Digit1 v) := by
  show wordG 0x2 v &&& 0xFF00#16 = 0x0200#16
  revert v; decide

theorem max7219Digit2 (v : Byte) : Statement (.max7219Digit2 v) := by
  show wordG 0x3 v &&& 0xFF00#16 = 0x0300#16
  revert v; decide

theorem max7219Digit3 (v : Byte) : Statement (.max7219Digit3 v) := by
  show wordG 0x4 v &&& 0xFF00#16 = 0x0400#16
  revert v; decide

theorem max7219Digit4 (v : Byte) : Statement (.max7219Digit4 v) := by
  show wordG 0x5 v &&& 0xFF00#16 = 0x0500#16
  revert v; decide

theorem max7219Digit5 (v : Byte) : Statement (.max7219Digit5 v) := by
  show wordG 0x6 v &&& 0xFF00#16 = 0x0600#16
  revert v; decide

theorem max7219Digit6 (v : Byte) : Statement (.max7219Digit6 v) := by
  show wordG 0x7 v &&& 0xFF00#16 = 0x0700#16
  revert v; decide

theorem max7219Digit7 (v : Byte) : Statement (.max7219Digit7 v) := by
  show wordG 0x8 v &&& 0xFF00#16 = 0x0800#16
  revert v; decide

theorem max7219DecodeMode (v : Byte) : Statement (.max7219DecodeMode v) := by
  show wordG 0x9 v &&& 0xFF00#16 = 0x0900#16
  revert v; decide

theorem max7219Intensity (v : Byte) : Statement (.max7219Intensity v) := by
  show wordG 0xA v &&& 0xFF00#16 = 0x0A00#16
  revert v; decide

theorem max7219ScanLimit (v : Byte) : Statement (.max7219ScanLimit v) := by
  show wordG 0xB v &&& 0xFF00#16 = 0x0B00#16
  revert v; decide

theorem max7219Shutdown (v : Byte) : Statement (.max7219Shutdown v) := by
  show wordG 0xC v &&& 0xFF00#16 = 0x0C00#16
  revert v; decide

theorem max7219AddrD (v : Byte) : Statement (.max7219AddrD v) := by
  show wordG 0xD v &&& 0xFF00#16 = 0x0D00#16
  revert v; decide

theorem max7219AddrE (v : Byte) : Statement (.max7219AddrE v) := by
  show wordG 0xE v &&& 0xFF00#16 = 0x0E00#16
  revert v; decide

theorem max7219DisplayTest (v : Byte) : Statement (.max7219DisplayTest v) := by
  show wordG 0xF v &&& 0xFF00#16 = 0x0F00#16
  revert v; decide

end Sys2Proof.Laws.TableRow
end

