-- ==== Sys2Proof/Laws/Pixel.lean ====
section
/-! SUPPORT. The laws of the layout mapper and of the pixel commands: the mapper is one to one, a written cell, and row
addresses that exist. -/

namespace Sys2Proof.Machine

theorem seven_sub_inj : ∀ x y : BitVec 3, 7 - x = 7 - y → x = y := by decide

theorem vflip_vflip (o : BitVec 4) (q : BitVec 3 × BitVec 3) : vflip o (vflip o q) = q := by
  unfold vflip
  split <;> simp

theorem hflip_hflip (o : BitVec 4) (q : BitVec 3 × BitVec 3) : hflip o (hflip o q) = q := by
  unfold hflip
  split <;> simp

theorem rotate_injective {o : BitVec 4} {r c r' c' : BitVec 3} (h : rotate o r c = rotate o r' c') : r = r' ∧ c = c' := by
  unfold rotate at h
  split at h <;> simp only [Prod.mk.injEq] at h
  · exact h
  · exact ⟨seven_sub_inj _ _ h.2, h.1⟩
  · exact ⟨seven_sub_inj _ _ h.1, seven_sub_inj _ _ h.2⟩
  · exact ⟨h.2, seven_sub_inj _ _ h.1⟩

/-- The mapper of one module is one to one (42_layout_framebuffer R172, property 1). -/
theorem mapCell_injective {o : BitVec 4} {r c r' c' : BitVec 3} (h : mapCell o r c = mapCell o r' c') :
    r = r' ∧ c = c' := by
  have h1 := congrArg (vflip o) h
  simp only [mapCell, vflip_vflip] at h1
  have h2 := congrArg (hflip o) h1
  simp only [hflip_hflip] at h2
  exact rotate_injective h2

/-- The bits of a row byte after a cell is written (42_layout_framebuffer R176). -/
theorem setCell_getLsbD (b : Byte) (pc : BitVec 3) (on : Bool) {j : Nat} (hj : j < 8) :
    (setCell b pc on).getLsbD j = if j = pc.toNat then on else b.getLsbD j := by
  by_cases h : j = pc.toNat
  · subst h
    cases on <;> simp [setCell, columnMask, hj]
  · have : j < pc.toNat ∨ ¬ (j - pc.toNat = 0) := by omega
    cases on <;> rcases this with h3 | h3 <;> simp [setCell, columnMask, hj, h, h3]

/-- A row address whose position is in the chain exists (20_memory R51). -/
theorem rowAddress_lt {s : State} {m : Nat} (r c : Nat) (h : (s.orderAt m).toNat < s.count) :
    (lmap s m r c).rowAddress < 8 * s.count := by
  have := (lmap s m r c).pr.isLt
  have e : (lmap s m r c).p = s.orderAt m := rfl
  simp only [PhysPixel.rowAddress, e]
  omega

theorem rowRead_of_lt {s : State} {a : Nat} (h : a < 8 * s.count) : rowRead a s = some (Memory.read a s.fb) := by
  simp [rowRead, h]

theorem rowRead_of_le {s : State} {a : Nat} (h : 8 * s.count ≤ a) : rowRead a s = none := by
  simp [rowRead, Nat.not_lt.mpr h]

/-- Two physical cells with one row address and one column are one cell. -/
theorem physPixel_ext {q q' : PhysPixel} (ha : q.rowAddress = q'.rowAddress) (hc : q.pc = q'.pc) : q = q' := by
  have h1 := q.pr.isLt
  have h2 := q'.pr.isLt
  obtain ⟨p, pr, pc⟩ := q
  obtain ⟨p', pr', pc'⟩ := q'
  simp only [PhysPixel.rowAddress] at ha
  simp only at hc h1 h2
  have hp : p = p' := BitVec.eq_of_toNat_eq (by omega)
  have hr : pr = pr' := BitVec.eq_of_toNat_eq (by omega)
  rw [hp, hr, hc]

/-- A committed position is in the chain (10_state R34). -/
theorem orderAt_lt_of_inv {s : State} (hi : s.Inv) (h : s.mode = .configured) {m : Nat} (hm : m < s.count) :
    (s.orderAt m).toNat < s.count := by
  have hx : (s.orderAt m).toNat ∈ s.committedOrder := List.mem_map.mpr ⟨m, List.mem_range.mpr hm, rfl⟩
  exact List.mem_range.mp ((hi.2.2.2 h).2.1.mem_iff.mp hx)

/-- SET_PIXEL of a valid pixel whose row exists. -/
theorem execSetPixel_valid {m r c : Nat} {on : Bool} {s : State} (h : s.mode = .configured) (hv : validPixel s m r c)
    (ho : (s.orderAt m).toNat < s.count) :
    execSetPixel m r c on s = finish 0 (rowWrite (lmap s m r c).rowAddress
      (setCell (Memory.read (lmap s m r c).rowAddress s.fb) (lmap s m r c).pc on) s) := by
  simp only [execSetPixel, checkPix_valid h hv, rowRead_of_lt (rowAddress_lt r c ho)]

/-- GET_PIXEL of a valid pixel whose row exists. -/
theorem execGetPixel_valid {m r c : Nat} {s : State} (h : s.mode = .configured) (hv : validPixel s m r c)
    (ho : (s.orderAt m).toNat < s.count) :
    execGetPixel m r c s =
      finish (bitData (getCell (Memory.read (lmap s m r c).rowAddress s.fb) (lmap s m r c).pc)) s := by
  simp only [execGetPixel, checkPix_valid h hv, rowRead_of_lt (rowAddress_lt r c ho)]

end Sys2Proof.Machine
end

