-- ==== Sys2Proof/Laws/Sending.lean ====
section
/-! SUPPORT. What sending leaves outside the block: a transmit loop is the replay of its frames, and the registers of a
module after a batch. -/

namespace Sys2Proof.Machine

/-- `s` and `u` agree outside the block: the bus log, the answers to come, the chain, the counter of draws. -/
def SameOutside (s u : State) : Prop :=
  s.busLog = u.busLog ∧ s.answers = u.answers ∧ s.chain = u.chain ∧ s.draws = u.draws

theorem SameOutside.refl (s : State) : SameOutside s s := ⟨rfl, rfl, rfl, rfl⟩

theorem SameOutside.nextAnswer {s u : State} (h : SameOutside s u) : s.nextAnswer = u.nextAnswer := by
  simp only [State.nextAnswer, h.1, h.2.1]

/-- `Transmit` looks at nothing else, and what it leaves outside the block is the same. -/
theorem SameOutside.transmit {s u : State} (h : SameOutside s u) (f : List Byte) :
    SameOutside (transmit f s) (transmit f u) := by
  have ha := h.nextAnswer
  obtain ⟨h1, h2, h3, h4⟩ := h
  refine ⟨?_, ?_, ?_, ?_⟩ <;> simp only [Machine.transmit, h1, h2, h3, h4, ha]

@[simp] theorem replay_nil (s : State) : replay s [] = s := rfl

theorem replay_cons (s : State) (x : Transaction) (l : List Transaction) :
    replay s (x :: l) = replay (transmit x.frame s) l := rfl

theorem SameOutside.replay {s u : State} (h : SameOutside s u) (l : List Transaction) :
    SameOutside (replay s l) (replay u l) := by
  induction l generalizing s u with
  | nil => exact h
  | cons x l ih => exact ih (h.transmit x.frame)

/-- A transmit loop adds transactions to the bus log and is the replay of them. -/
theorem sendTxns_replay (n : Nat) (T : List SlotMap) (s : State) :
    ∃ new, (sendTxns n T s).state.busLog = s.busLog ++ new ∧ (sendTxns n T s).state = replay s new ∧
      ∀ x ∈ new, ∃ S ∈ T, x.frame = buildFrame n S := by
  induction T generalizing s with
  | nil => exact ⟨[], by simp [sendTxns], rfl, by simp⟩
  | cons S T ih =>
    cases h : s.answerAt 0
    · obtain ⟨new, h1, h2, h3⟩ := ih (transmit (buildFrame n S) s)
      rw [sendTxns_cons_ok h]
      refine ⟨⟨buildFrame n S, s.nextAnswer⟩ :: new, by simp [h1], h2, fun x hx => ?_⟩
      rcases List.mem_cons.mp hx with rfl | hx
      · exact ⟨S, by simp, rfl⟩
      · obtain ⟨S', hS', e⟩ := h3 x hx
        exact ⟨S', by simp [hS'], e⟩
    · rw [sendTxns_cons_err h]
      refine ⟨[⟨buildFrame n S, s.nextAnswer⟩], by simp, rfl, fun x hx => ?_⟩
      rw [List.mem_singleton.mp hx]
      exact ⟨S, by simp, rfl⟩

/-- The base of a sending command and the state before it agree outside the block. -/
theorem sendBase_sameOutside (i : Instr) (s : State) : SameOutside (sendBase i s) s := by
  cases i <;> exact .refl _

/-- The effect of a command that sends nothing agrees with the state before it outside the block. -/
theorem quietEffect_sameOutside (i : Instr) (s : State) : SameOutside (quietEffect i s) s := by
  cases i <;> exact .refl _

/-! ### The registers of a module after a batch -/

/-- One slot of a slot map, taken by the module at `p`. -/
def takeSlot (p : Nat) (regs : ModuleRegs) (x : Nat × Group) : ModuleRegs :=
  if x.1 = p then writeReg 0 p x.2.addr x.2.value regs else regs

/-- A write that names a register, or the No-Op, does not depend on the draw. -/
theorem writeReg_draw {a : BitVec 4} (h : unnamedReg a = false) (d p : Nat) (v : Byte) (regs : ModuleRegs) :
    writeReg d p a v regs = writeReg 0 p a v regs := by
  by_cases h0 : a = 0x0
  · subst h0; rw [writeReg_noop, writeReg_noop]
  · rw [writeReg_named h0 h, writeReg_named h0 h]

theorem regAt_writeReg {a : BitVec 4} (h : unnamedReg a = false) (d p : Nat) (v : Byte) (regs : ModuleRegs)
    (b : BitVec 4) :
    regAt (writeReg d p a v regs) b = if a = b ∧ b ≠ 0x0 then v else regAt regs b := by
  by_cases h0 : a = 0x0
  · subst h0
    rw [writeReg_noop, if_neg fun e => e.2 e.1.symm]
  · rw [writeReg_named h0 h, regAt_setReg]
    by_cases e : b = a
    · subst e; rw [if_pos rfl, if_pos ⟨rfl, h0⟩]
    · rw [if_neg e, if_neg fun k => e k.1.symm]

/-- A module at which no slot stands takes nothing. -/
theorem foldl_takeSlot_of_not_mem {p : Nat} (S : SlotMap) (regs : ModuleRegs) (h : p ∉ S.map Prod.fst) :
    S.foldl (takeSlot p) regs = regs := by
  induction S generalizing regs with
  | nil => rfl
  | cons x S ih =>
    simp only [List.map_cons, List.mem_cons, not_or] at h
    rw [List.foldl_cons, ih _ h.2, takeSlot, if_neg fun e => h.1 e.symm]

/-- A module takes its one slot of a slot map. -/
theorem writeReg_at_eq_foldl {p d : Nat} (S : SlotMap) (regs : ModuleRegs) (hS : (S.map Prod.fst).Nodup)
    (hn : ∀ x ∈ S, x.1 = p → unnamedReg x.2.addr = false) :
    writeReg d p ((S.at p).getD noopGroup).addr ((S.at p).getD noopGroup).value regs = S.foldl (takeSlot p) regs := by
  induction S with
  | nil => exact writeReg_noop _ _ _ _
  | cons x S ih =>
    obtain ⟨q, g⟩ := x
    rw [List.map_cons, List.nodup_cons] at hS
    rw [List.foldl_cons]
    by_cases h : p = q
    · subst h
      have e : SlotMap.at ((p, g) :: S) p = some g := by simp [SlotMap.at]
      rw [e, Option.getD_some, foldl_takeSlot_of_not_mem _ _ hS.1, takeSlot, if_pos rfl,
        writeReg_draw (hn (p, g) (by simp) rfl)]
    · have e : SlotMap.at ((q, g) :: S) p = SlotMap.at S p := by
        simp [SlotMap.at, List.lookup_cons, beq_false_of_ne h]
      rw [e, takeSlot, if_neg fun k => h k.symm]
      exact ih hS.2 fun x hx => hn x (by simp [hx])

/-- A module takes its slots of a list of slot maps, in order. -/
theorem foldl_txns_eq_foldl_slots {p : Nat} (T : List SlotMap) (d : Nat) (regs : ModuleRegs)
    (hS : ∀ S ∈ T, (S.map Prod.fst).Nodup) (hn : ∀ S ∈ T, ∀ x ∈ S, x.1 = p → unnamedReg x.2.addr = false) :
    (T.foldl (fun x S => (x.1 + 1,
      writeReg x.1 p ((S.at p).getD noopGroup).addr ((S.at p).getD noopGroup).value x.2)) (d, regs)).2 =
      T.flatten.foldl (takeSlot p) regs := by
  induction T generalizing d regs with
  | nil => rfl
  | cons S T ih =>
    rw [List.foldl_cons, ih _ _ (fun S' h => hS S' (by simp [h])) (fun S' h => hn S' (by simp [h])),
      writeReg_at_eq_foldl S regs (hS S (by simp)) (hn S (by simp)), List.flatten_cons, List.foldl_append]

theorem lastWrite_append_singleton (L : List RegisterCommand) (e : RegisterCommand) (p : Nat) (b : BitVec 4) :
    lastWrite (L ++ [e]) p b = if e.p.toNat = p ∧ e.a = b ∧ b ≠ 0x0 then some e.v else lastWrite L p b := by
  unfold lastWrite
  rw [List.reverse_append, List.reverse_singleton, List.singleton_append, List.find?_cons]
  by_cases h : e.p.toNat = p ∧ e.a = b ∧ b ≠ 0x0
  · rw [if_pos h]; rw [show (e.p.toNat == p && e.a == b && b != 0x0) = true by simpa [and_assoc] using h]; rfl
  · rw [if_neg h]
    have : (e.p.toNat == p && e.a == b && b != 0x0) = false := by
      rw [Bool.eq_false_iff]; simp only [ne_eq, Bool.and_eq_true, beq_iff_eq, bne_iff_ne]; tauto
    rw [this]

/-- Each register of a module after the slots of a batch: the last value the batch gives it (40_protocol R120, property 2,
R105). -/
theorem regAt_foldl_slots {p : Nat} (L : List RegisterCommand) (regs : ModuleRegs) (b : BitVec 4)
    (hn : ∀ e ∈ L, e.p.toNat = p → unnamedReg e.a = false) :
    regAt ((L.map RegisterCommand.slot).foldl (takeSlot p) regs) b = (lastWrite L p b).getD (regAt regs b) := by
  induction L using List.reverseRecOn with
  | nil => rfl
  | append_singleton L e ih =>
    have ih := ih fun x hx => hn x (by simp [hx])
    rw [List.map_append, List.foldl_append, List.map_singleton, List.foldl_cons, List.foldl_nil,
      lastWrite_append_singleton, takeSlot, show e.slot.1 = e.p.toNat from rfl]
    by_cases h : e.p.toNat = p
    · rw [if_pos h, show e.slot.2.addr = e.a from rfl, show e.slot.2.value = e.v from rfl,
        regAt_writeReg (hn e (by simp) h), ih]
      by_cases h2 : e.a = b ∧ b ≠ 0x0
      · rw [if_pos h2, if_pos ⟨h, h2⟩, Option.getD_some]
      · rw [if_neg h2, if_neg fun k => h2 k.2]
    · rw [if_neg h, ih, if_neg fun k => h k.1]

/-- Each register of a module after the transactions of a batch, all answered `Ok` (40_protocol R121, R104, R105). -/
theorem regAt_latchAll_partition {n p : Nat} (L : List RegisterCommand) (d : Nat) (regs : Vector ModuleRegs 256)
    (b : BitVec 4) (h : p < 256) (hp : p < n) (hn : ∀ e ∈ L, e.p.toNat = p → unnamedReg e.a = false) :
    regAt (chainAt (latchAll n (partition L) d regs) p) b = (lastWrite L p b).getD (regAt (chainAt regs p) b) := by
  rw [chainAt_latchAll _ _ _ h hp, foldl_txns_eq_foldl_slots _ _ _ (partition_nodup L), partition_flatten,
    regAt_foldl_slots L _ b hn]
  intro S hS x hx
  have hm := List.mem_flatten.mpr ⟨S, hS, hx⟩
  rw [partition_flatten] at hm
  obtain ⟨e, he, rfl⟩ := List.mem_map.mp hm
  exact hn e he

end Sys2Proof.Machine
end

