-- ==== Sys2Proof/Tests/Slice0.lean ====
section
/-! SUPPORT. Tests: the WellFormed smoke test, one word for each constructor written out from the spec's encodings, single
steps with results from spec/95_test_vectors.md, and for every obligation with hypotheses a state that meets them. -/

namespace Sys2Proof.Tests

open Sys2Proof.Machine

/-! ### WellFormed: each check refuses an operand one above its field -/

theorem test_wf_cfgCount : (Instr.cfgCount 256).wellFormed = false := by decide
theorem test_wf_cfgModule_m : (Instr.cfgModule 256 0 0).wellFormed = false := by decide
theorem test_wf_cfgModule_p : (Instr.cfgModule 0 256 0).wellFormed = false := by decide
theorem test_wf_sendOne : (Instr.sendOne 256 0 0).wellFormed = false := by decide
theorem test_wf_batchPut : (Instr.batchPut 256 0 0).wellFormed = false := by decide
theorem test_wf_setIntensity : (Instr.setIntensity 256).wellFormed = false := by decide
theorem test_wf_setPixel_m : (Instr.setPixel 256 0 0 true).wellFormed = false := by decide
theorem test_wf_setPixel_r : (Instr.setPixel 0 256 0 true).wellFormed = false := by decide
theorem test_wf_setPixel_c : (Instr.setPixel 0 0 256 true).wellFormed = false := by decide
theorem test_wf_getPixel_m : (Instr.getPixel 256 0 0).wellFormed = false := by decide
theorem test_wf_getPixel_r : (Instr.getPixel 0 256 0).wellFormed = false := by decide
theorem test_wf_getPixel_c : (Instr.getPixel 0 0 256).wellFormed = false := by decide
theorem test_wf_map_m : (Instr.map 256 0 0).wellFormed = false := by decide
theorem test_wf_map_r : (Instr.map 0 256 0).wellFormed = false := by decide
theorem test_wf_map_c : (Instr.map 0 0 256).wellFormed = false := by decide

/-! ### Decoding: a word of each row, from 30_encoding R72 to R76, R80, R87 and R90, and 95_test_vectors 2.1 -/

theorem test_decode_cfgCount : decodeTableWord 32 0x100000FF = some (.cfgCount 255) := by decide
theorem test_decode_cfgModule : decodeTableWord 32 0x20010205 = some (.cfgModule 1 2 0x5) := by decide
theorem test_decode_init : decodeTableWord 32 0x30000000 = some .init := by decide
theorem test_decode_sendOne : decodeTableWord 32 0x4A010005 = some (.sendOne 1 0xA 0x05) := by decide
theorem test_decode_batchPut : decodeTableWord 32 0x510200FF = some (.batchPut 2 0x1 0xFF) := by decide
theorem test_decode_batchSend : decodeTableWord 32 0x60000000 = some .batchSend := by decide
theorem test_decode_setIntensity : decodeTableWord 32 0x7000000F = some (.setIntensity 15) := by decide
theorem test_decode_setTestMode : decodeTableWord 32 0x80000001 = some (.setTestMode true) := by decide
theorem test_decode_setPixel : decodeTableWord 32 0x91020307 = some (.setPixel 2 3 7 true) := by decide
theorem test_decode_getPixel : decodeTableWord 32 0xA0010203 = some (.getPixel 1 2 3) := by decide
theorem test_decode_clear : decodeTableWord 32 0xB0000000 = some .clear := by decide
theorem test_decode_flush : decodeTableWord 32 0xC0000000 = some .flush := by decide
theorem test_decode_map : decodeTableWord 32 0xD0020700 = some (.map 2 7 0) := by decide
theorem test_decode_noop : decodeTableWord 16 0x00AB = some (.max7219Noop 0xAB) := by decide
theorem test_decode_digit0 : decodeTableWord 16 0x01AB = some (.max7219Digit0 0xAB) := by decide
theorem test_decode_digit1 : decodeTableWord 16 0x02AB = some (.max7219Digit1 0xAB) := by decide
theorem test_decode_digit2 : decodeTableWord 16 0x03AB = some (.max7219Digit2 0xAB) := by decide
theorem test_decode_digit3 : decodeTableWord 16 0x04AB = some (.max7219Digit3 0xAB) := by decide
theorem test_decode_digit4 : decodeTableWord 16 0x05AB = some (.max7219Digit4 0xAB) := by decide
theorem test_decode_digit5 : decodeTableWord 16 0x06AB = some (.max7219Digit5 0xAB) := by decide
theorem test_decode_digit6 : decodeTableWord 16 0x07AB = some (.max7219Digit6 0xAB) := by decide
theorem test_decode_digit7 : decodeTableWord 16 0x08AB = some (.max7219Digit7 0xAB) := by decide
theorem test_decode_decodeMode : decodeTableWord 16 0x09AB = some (.max7219DecodeMode 0xAB) := by decide
theorem test_decode_intensity : decodeTableWord 16 0x0AAB = some (.max7219Intensity 0xAB) := by decide
theorem test_decode_scanLimit : decodeTableWord 16 0x0BAB = some (.max7219ScanLimit 0xAB) := by decide
theorem test_decode_shutdown : decodeTableWord 16 0x0CAB = some (.max7219Shutdown 0xAB) := by decide
theorem test_decode_addrD : decodeTableWord 16 0x0DAB = some (.max7219AddrD 0xAB) := by decide
theorem test_decode_addrE : decodeTableWord 16 0x0EAB = some (.max7219AddrE 0xAB) := by decide
theorem test_decode_displayTest : decodeTableWord 16 0x0FAB = some (.max7219DisplayTest 0xAB) := by decide

/-- The illegal words of 95_test_vectors 2.1. -/
theorem test_decode_illegal :
    [0x00000000, 0xE0000000, 0xF0000000, 0x30000001, 0xB0000001, 0xC8000000, 0x60000100, 0x10000100, 0x70000100,
      0x20001010, 0x80000002, 0x40001200, 0x4F00FFFF, 0x92000000, 0xA1000000, 0xD1000000].map (decodeTableWord 32)
      = List.replicate 16 none := by decide

/-! ### States -/

/-- Registers of a module in normal operation, as INIT leaves it, with dark rows. -/
def normalRegs : ModuleRegs := tabulate 16 fun a => if a = 12 then 0x01 else if a = 11 then 0x07 else 0x00

/-- A chain of `n` modules in chain order `order` with orientation codes `orient`, after INIT, the transport answering
`answers`. -/
def chainOf (n : Nat) (order : Nat → Nat) (orient : Nat → BitVec 4) (answers : List Answer) : State :=
  { State.reset with
    mode := .configured
    N := BitVec.ofNat 8 n
    stgN := BitVec.ofNat 8 n
    order := tabulate 256 fun m => BitVec.ofNat 8 (order m)
    orient := tabulate 256 orient
    chain := tabulate 256 fun _ => normalRegs
    answers := answers }

/-- `n` modules in a line, no orientation, every answer `Ok`. -/
def lineOf (n : Nat) : State := chainOf n id (fun _ => 0) (List.replicate 40 .ok)

/-- Two modules in reversed order, the second one rotated by 90°, with two row bytes set and a batch of two entries. -/
def demo : State :=
  { chainOf 2 (fun m => 1 - m) (fun m => if m = 1 then 0x1 else 0x0) (List.replicate 40 .ok) with
    fb := [(0, 0x81), (8, 0x3C)]
    batch := [⟨0, 0x1, 0xAA⟩, ⟨0, 0x2, 0x0F⟩] }

/-- The next state, where there is one. -/
def nextOf : Result → Option State
  | .next t => some t
  | _ => none

def resultOf (r : Result) : Option Word := (nextOf r).map State.result

/-- The frames and answers that an instruction added to the bus log of a state with an empty one. -/
def logOf (r : Result) : Option (List (List Byte × Answer)) :=
  (nextOf r).map fun t => t.busLog.map fun x => (x.frame, x.answer)

def fbOf (r : Result) : Option Memory := (nextOf r).map State.fb

/-! ### Single steps, results from 95_test_vectors.md -/

/-- 41_config_init R140, the example. -/
theorem test_cfgCount : (nextOf (exec (.cfgCount 3) State.reset)).map State.stgN = some 3 := by decide

/-- 41_config_init R142, the example. -/
theorem test_cfgModule : (nextOf (exec (.cfgModule 0 2 0x5) State.reset)).map
    (fun t => (t.stgOrderAt 0, t.stgOrientAt 0, t.stgOrderAt 1)) = some (2, 0x5, 1) := by decide +kernel

/-- 95_test_vectors 2.7, line 1. -/
theorem test_init_unstaged : resultOf (exec .init State.reset) = some 0x10000000 := by decide

/-- 95_test_vectors 2.7, last line: `Err` at index 5. -/
theorem test_init_err : resultOf (exec .init { lineOf 1 with answers := List.replicate 5 .ok ++ [.err] })
    = some 0x30000005 := by decide

/-- 95_test_vectors 2.3, line 1. -/
theorem test_sendOne : logOf (exec (.sendOne 1 0xA 0x05) (lineOf 3)) = some [([0, 0, 0x0A, 0x05, 0, 0], .ok)] := by
  decide

/-- 95_test_vectors 2.3, line 5. -/
theorem test_sendOne_range : resultOf (exec (.sendOne 3 0xA 0x05) (lineOf 3)) = some 0x20000000 := by decide

/-- 40_protocol R115, the example. -/
theorem test_batchPut : resultOf (exec (.batchPut 2 0x1 0xFF) (lineOf 3)) = some 0x00000001 := by decide

/-- 95_test_vectors 2.4: the 257th entry. -/
theorem test_batchPut_full :
    resultOf (exec (.batchPut 0 0x0 0xFF) { lineOf 1 with batch := List.replicate 256 ⟨0, 0x0, 0xFF⟩ })
      = some 0x20000000 := by decide +kernel

/-- 95_test_vectors 2.4, partition line 5. -/
theorem test_batchSend :
    logOf (exec .batchSend { lineOf 3 with
      batch := [⟨0, 1, 0x01⟩, ⟨1, 1, 0x02⟩, ⟨0, 2, 0x03⟩, ⟨2, 2, 0x04⟩, ⟨1, 3, 0x05⟩] })
      = some [([0, 0, 1, 2, 1, 1], .ok), ([2, 4, 3, 5, 2, 3], .ok)] := by decide

/-- 95_test_vectors 2.4: `Err` at the second frame. -/
theorem test_batchSend_err :
    resultOf (exec .batchSend { lineOf 2 with
      batch := [⟨0, 1, 0xAA⟩, ⟨1, 1, 0x55⟩, ⟨0, 2, 0x0F⟩], answers := [.ok, .err] }) = some 0x30000001 := by decide

/-- 95_test_vectors 2.5. -/
theorem test_setIntensity : logOf (exec (.setIntensity 15) (lineOf 2)) = some [([0x0A, 0x0F, 0x0A, 0x0F], .ok)] := by
  decide
theorem test_setIntensity_range : resultOf (exec (.setIntensity 16) (lineOf 2)) = some 0x20000000 := by decide

/-- 40_protocol R125: every module holds the intensity; 40_protocol R120, property 2: the later entry of a batch wins. -/
theorem test_setIntensity_latches :
    (nextOf (exec (.setIntensity 15) (lineOf 2))).map (fun t => (t.reg 0 0xA, t.reg 1 0xA, t.reg 1 0xB))
      = some (0x0F, 0x0F, 0x07) := by decide
theorem test_batchSend_latches :
    (nextOf (exec .batchSend { lineOf 2 with batch := [⟨0, 1, 0xAA⟩, ⟨0, 1, 0x0F⟩, ⟨1, 1, 0x55⟩] })).map
      (fun t => (t.reg 0 0x1, t.reg 1 0x1, t.reg 1 0x2)) = some (0x0F, 0x55, 0x00) := by decide

/-- 95_test_vectors 2.6. -/
theorem test_setTestMode :
    logOf (exec (.setTestMode true) (lineOf 3)) = some [([0x0F, 1, 0x0F, 1, 0x0F, 1], .ok)] := by decide
theorem test_setTestMode_err : resultOf (exec (.setTestMode false) { lineOf 1 with answers := [.err] })
    = some 0x30000000 := by decide

/-- 95_test_vectors 2.10, line 5. -/
theorem test_setPixel : fbOf (exec (.setPixel 0 2 7 true) { lineOf 1 with fb := [(2, 0x08)] }) = some [(2, 0x88)] := by
  decide

/-- 95_test_vectors P2, hpc 6: logical (0,0) of module 1 at position 1, 90°, is bit 7. -/
theorem test_setPixel_oriented :
    fbOf (exec (.setPixel 1 0 0 true) (chainOf 3 (fun m => 2 - m) (fun _ => 0x1) [])) = some [(8, 0x80)] := by decide

/-- 95_test_vectors 2.10, lines 2 and 3. -/
theorem test_getPixel : resultOf (exec (.getPixel 0 2 3) { lineOf 1 with fb := [(2, 0x08)] }) = some 0x00000001 := by
  decide
theorem test_getPixel_dark : resultOf (exec (.getPixel 0 3 2) { lineOf 1 with fb := [(2, 0x08)] })
    = some 0x00000000 := by decide

/-- 95_test_vectors 2.10, line 10. -/
theorem test_clear : fbOf (exec .clear { lineOf 1 with fb := [(2, 0x80)] }) = some [] := by decide

/-- 95_test_vectors 1.5, the first two frames. -/
theorem test_flush : (logOf (exec .flush { lineOf 2 with fb := [(0, 0x81), (8, 0x3C)] })).map (List.take 2)
    = some [([0x01, 0x3C, 0x01, 0x81], .ok), ([0x02, 0x00, 0x02, 0x00], .ok)] := by decide

/-- 95_test_vectors 2.11, line 3. -/
theorem test_flush_err : resultOf (exec .flush { lineOf 1 with answers := [.ok, .ok, .ok, .err] })
    = some 0x30000003 := by decide

/-- 95_test_vectors 2.9, lines 1 and 4. -/
theorem test_map : resultOf (exec (.map 0 0 7) (chainOf 3 (fun m => 2 - m) (fun _ => 0x1) [])) = some 0x0000023F := by
  decide
theorem test_map_hflip : resultOf (exec (.map 2 7 0) (chainOf 3 (fun m => 2 - m) (fun _ => 0x4) []))
    = some 0x0000003F := by decide

/-- 30_encoding R87: DIGIT7 is register 8. -/
theorem test_digit7 : (nextOf (exec (.max7219Digit7 0x5A) (lineOf 1))).map (fun t => (t.reg 0 0x8, t.reg 0 0x7, t.reg 1 0x8))
    = some (0x5A, 0x00, 0x00) := by decide

/-- 30_encoding R87: SHUTDOWN is register 0xC. -/
theorem test_shutdown : (nextOf (exec (.max7219Shutdown 0x00) (lineOf 1))).map (fun t => (t.reg 0 0xC, t.reg 0 0xB))
    = some (0x00, 0x07) := by decide

/-- 95_test_vectors 2.1, precedence: an illegal word before CONFIG_ERROR, the mode before the operands. -/
theorem test_step_precedence :
    [0x30000001, 0xC0000000, 0x91FF0707].map (fun w => resultOf (step (State.reset.withFetchWord 32 w)))
      = [some 0x50000000, some 0x40000000, some 0x40000000] := by decide

/-- A group runs as the first instruction after reset. -/
theorem test_step_group :
    (nextOf (step (State.reset.withFetchWord 16 0x0C01))).map (fun t => t.reg 0 0xC) = some 0x01 := by decide

/-- 95_test_vectors P1: the LED at (3, 4) is lit and its neighbour is not. -/
theorem test_ledLit :
    (nextOf (exec (.sendOne 0 0x4 0x10) (lineOf 1))).map (fun t => (ledLit t 0 3 4, ledLit t 0 3 3)) = some (true, false) := by
  decide

/-! ### The assembler, lines of 30_encoding R88 to R90 -/

theorem test_asm_send_one :
    assembleLine 3 "send_one 1, 0xA, 0x05 ; intensity" = some [.sendOne 1 0xA 0x05] := by decide
theorem test_asm_wide : assembleLine 3 "send_one 1, 16, 0x05" = none := by decide
theorem test_asm_cfg_linear :
    assembleLine 0 "cfg_linear 2" = some [.cfgCount 2, .cfgModule 0 0 0, .cfgModule 1 1 0] := by decide

/-! ### Witnesses: for every obligation with hypotheses, values that meet them -/

/-- `exec` answers a next state. -/
def runs (i : Instr) (s : State) : Bool := (nextOf (exec i s)).isSome

/-- A state that answers a next state, with that state. -/
theorem exists_of_runs {i : Instr} {s : State} (h : runs i s = true) : ∃ t, exec i s = .next t := by
  unfold runs at h
  cases e : exec i s with
  | next t => exact ⟨t, rfl⟩
  | fault f => rw [e] at h; cases h
  | refused r => rw [e] at h; cases h

/-- As `exists_of_runs`, with a fact about the next state. -/
theorem exists_of_next {i : Instr} {s : State} {P : State → Bool} (h : ((nextOf (exec i s)).map P) = some true) :
    ∃ t, exec i s = .next t ∧ P t = true := by
  cases e : exec i s with
  | next t => rw [e] at h; exact ⟨t, rfl, by simpa [nextOf] using h⟩
  | fault f => rw [e] at h; cases h
  | refused r => rw [e] at h; cases h

theorem witness_inv : demo.Inv := by decide
theorem witness_inv_unconfigured : State.reset.Inv := by decide

/-- `demo` with CLEAR as its next input. -/
def demoClear : State := { demo with pending := [.command 0xB0000000] }

theorem witness_StepKeepsInvariant : demoClear.Inv ∧ ∃ t, step demoClear = .next t := ⟨by decide, _, rfl⟩
theorem witness_InvariantStepsNeverStop : demoClear.Inv := by decide
theorem witness_DecodeOfEncode : (Instr.setPixel 255 255 255 true).wellFormed = true := by decide
theorem witness_EncodeOfDecode : decodeCommand 0x4FFF00FF = .ok (.sendOne 255 0xF 0xFF) := rfl
theorem witness_IllegalWords : decodeCommand 0xE0000000 = .error (.reservedOpcode 0xE) := rfl
theorem witness_StepRuns_command : ∃ (s : State) (w : Word) (rest : List Input) (i : Instr),
    s.pending = Input.command w :: rest ∧ decodeCommand w = .ok i :=
  ⟨demoClear, 0xB0000000, [], .clear, rfl, rfl⟩
theorem witness_StepRuns_illegal : ∃ (s : State) (w : Word) (rest : List Input) (e : Reject),
    s.pending = Input.command w :: rest ∧ decodeCommand w = .error e :=
  ⟨{ demo with pending := [.command 0] }, 0, [], .reservedOpcode 0, rfl, rfl⟩
theorem witness_StepRuns_group : ∃ (s : State) (p : Fin 256) (w : GroupWord) (rest : List Input),
    s.pending = Input.group p w :: rest := ⟨{ demo with pending := [.group 255 0x0C01] }, 255, 0x0C01, [], rfl⟩
theorem witness_StepWaits : State.reset.pending = [] := rfl
theorem witness_ResetInput : ∃ (s : State) (rest : List Input), s.pending = Input.reset :: rest :=
  ⟨{ demo with pending := [.reset] }, [], rfl⟩
theorem witness_PlacedWord_command : decodeTableWord 32 0xD00000FF = some (.map 0 0 255) := by decide
theorem witness_PlacedWord_group : decodeTableWord 16 0xFFFF = some (.max7219DisplayTest 0xFF) := by decide
theorem witness_CfgModule : 255 < 256 := by decide
theorem witness_Init_invalid : ¬ ValidStaging State.reset := fun h => h.1 rfl
theorem witness_Init_ok : ValidStaging demo ∧ okFor (13 * demo.stgN.toNat) demo :=
  ⟨(validConfig_iff demo).mp (by decide), by decide⟩

/-- One module, the transport failing at the last transaction of INIT. -/
def failingInit : State := { lineOf 1 with answers := List.replicate 12 .ok ++ [.err] }

theorem witness_Init_err :
    ValidStaging failingInit ∧ 12 < 13 * failingInit.stgN.toNat ∧ failsAt 12 failingInit :=
  ⟨(validConfig_iff failingInit).mp (by decide), by decide⟩
theorem witness_InitReaches : 0 < demo.stgN.toNat ∧ okFor (13 * 0 + 1) demo ∧ 0 < 1 ∧ 1 < demo.stgN.toNat := by decide
theorem witness_FramePlaces : SlotMap.at [(0, ⟨0xA, 0x05⟩)] 0 = some ⟨0xA, 0x05⟩ ∧
    SlotMap.at [(0, ⟨0xA, 0x05⟩)] 1 = none := by decide
theorem witness_SendTxns_ok : okFor (partition demo.batch).length demo := by decide
theorem witness_SendTxns_err : ([[], [(0, ⟨0x2, 0x0F⟩)]] : List SlotMap)[1]? = some [(0, ⟨0x2, 0x0F⟩)] ∧
    failsAt 1 { demo with answers := [.ok, .err] } := by decide
theorem witness_SendOne : State.reset.mode = .unconfigured ∧ demo.mode = .configured ∧ demo.count ≤ 2 ∧ 1 < demo.count := by
  decide
theorem witness_BatchPut_full : ({ demo with batch := List.replicate 256 ⟨0, 0, 0⟩ } : State).mode = .configured ∧
    ({ demo with batch := List.replicate 256 ⟨0, 0, 0⟩ } : State).batch.length = 256 := ⟨rfl, List.length_replicate⟩
theorem witness_BatchPut_range : demo.mode = .configured ∧ demo.count ≤ 2 := by decide
theorem witness_BatchPut : demo.mode = .configured ∧ 1 < demo.count ∧ demo.batch.length < 256 := by decide
theorem witness_Partition : (partition demo.batch)[0]? = some [(0, ⟨0x1, 0xAA⟩)] ∧
    (partition demo.batch)[0 + 1]? = some [(0, ⟨0x2, 0x0F⟩)] := by decide
theorem witness_Partition_distinct :
    [(⟨0, 1, 1⟩ : RegisterCommand), ⟨1, 1, 1⟩] ≠ [] ∧ ([⟨0, 1, 1⟩, ⟨1, 1, 1⟩].map RegisterCommand.p).Nodup := by decide
theorem witness_BatchSend_ok : demo.mode = .configured ∧ okFor (partition demo.batch).length demo := by decide

/-- `demo`, the transport failing at the second transaction. -/
def failingSecond : State := { demo with answers := [.ok, .err] }

theorem witness_BatchSend_err : failingSecond.mode = .configured ∧
    (partition failingSecond.batch)[1]? = some [(0, ⟨0x2, 0x0F⟩)] ∧ failsAt 1 failingSecond := by decide
theorem witness_SetIntensity : demo.mode = .configured ∧ 15 < 16 ∧ 15 ≤ 15 := by decide
theorem witness_SetTestMode : State.reset.mode = .unconfigured ∧ demo.mode = .configured := by decide
theorem witness_EverySentFrame : ∃ t, exec .flush demo = .next t := exists_of_runs (by decide)
theorem witness_Transmit : [0x0A, 0x05, 0x00, (0x00 : Byte)].length = 2 * 2 ∧ 1 < 2 ∧
    [0x0A, 0x05, 0x00, (0x00 : Byte)][2 * (2 - 1 - 1)]? = some 0x0A ∧
    [0x0A, 0x05, 0x00, (0x00 : Byte)][2 * (2 - 1 - 1) + 1]? = some 0x05 ∧ demo.answerAt 0 = .ok ∧
    State.answerAt { demo with answers := [.err] } 0 = .err := by decide
theorem witness_ChainWide : demo.mode = .configured ∧ 15 ≤ 15 ∧ demo.answerAt 0 = .ok ∧
    okFor (partition demo.batch).length demo ∧ 1 < demo.count ∧
    ∀ e ∈ demo.batch, e.p.toNat = 0 → e.a ≠ 0xD ∧ e.a ≠ 0xE := by decide
theorem witness_SendOneDisturbs : demo.mode = .configured ∧ 1 < demo.count ∧ demo.answerAt 0 = .ok := by decide
theorem witness_LayoutMap : demo.Inv ∧ demo.mode = .configured ∧ validPixel demo 1 7 7 ∧
    (PhysPixel.mk 1 7 7).p.toNat < demo.count := by decide
theorem witness_PixelCheck_m : demo.mode = .configured ∧ ¬ validPixel demo 2 0 0 := by decide
theorem witness_PixelCheck_r : demo.mode = .configured ∧ ¬ validPixel demo 0 8 0 := by decide
theorem witness_PixelCheck_c : demo.mode = .configured ∧ ¬ validPixel demo 0 0 8 := by decide
theorem witness_Map : demo.mode = .configured ∧ validPixel demo 1 7 7 := by decide
theorem witness_Pixel : demo.mode = .configured ∧ validPixel demo 1 7 7 ∧ (demo.orderAt 1).toNat < demo.count ∧
    Memory.wf demo.fb ∧ mapCell (demo.orientAt 1) 7 7 = (7, 0) := by decide
theorem witness_PixelFault : (chainOf 1 (fun _ => 1) (fun _ => 0) []).mode = .configured ∧
    validPixel (chainOf 1 (fun _ => 1) (fun _ => 0) []) 0 7 7 ∧
    (chainOf 1 (fun _ => 1) (fun _ => 0) []).count ≤ ((chainOf 1 (fun _ => 1) (fun _ => 0) []).orderAt 0).toNat ∧
    mapCell ((chainOf 1 (fun _ => 1) (fun _ => 0) []).orientAt 0) 7 7 = (7, 7) := by
  decide
theorem witness_Clear : demo.mode = .configured ∧ Memory.wf demo.fb := by decide
theorem witness_Flush_ok : demo.mode = .configured ∧ okFor 8 demo := by decide
theorem witness_Flush_err : demo.mode = .configured ∧ 7 < 8 ∧ failsAt 7 { demo with answers := List.replicate 7 .ok ++ [.err] } := by decide
theorem witness_FlushCounts : ∃ t, exec .flush demo = .next t ∧ (statusField t.result == 0) = true :=
  exists_of_next (P := fun t => statusField t.result == 0) (by decide)
theorem witness_FlushUpdates : 8 ≤ 8 ∧ okFor 8 demo ∧ 1 < demo.count := by decide
theorem witness_FlushShows : demo.mode = .configured ∧ okFor 8 demo ∧ 1 < demo.count ∧ demo.reg 1 0x9 = 0x00 ∧
    demo.reg 1 0xF = 0x00 ∧ demo.reg 1 0xC = 0x01 ∧ demo.reg 1 0xB = 0x07 := by decide
theorem witness_TestMode : demo.mode = .configured ∧ demo.answerAt 0 = .ok ∧ 1 < demo.count ∧ demo.reg 1 0x9 = 0x00 := by
  decide
theorem witness_RoundTrip : demo.Inv ∧ demo.mode = .configured ∧ validPixel demo 1 7 7 := by decide
theorem witness_Independent : demo.Inv ∧ demo.mode = .configured ∧ validPixel demo 1 7 7 ∧ validPixel demo 1 7 6 ∧
    (1, 7, 7) ≠ (1, 7, 6) := by decide
theorem witness_ModeGates : Instr.flush.needsConfig = true ∧ State.reset.mode = .unconfigured := by decide
theorem witness_ModeGates_exec : ∃ t, exec .init demo = .next t := exists_of_runs (by decide)
theorem witness_ModeGates_reset : ∃ s t : State, step s = .next t ∧ s.mode = .configured ∧ t.mode = .unconfigured :=
  ⟨{ demo with pending := [.reset] }, _, rfl, rfl, rfl⟩
theorem witness_OnlyTheNamed : ∃ t, exec (.max7219Digit0 0xFF) demo = .next t := exists_of_runs (by decide)
theorem witness_OnlyTransmitting : Instr.isCommand (.map 1 7 7) = true ∧ Instr.transmits (.map 1 7 7) = false ∧
    ∃ t, exec (.map 1 7 7) demo = .next t := ⟨rfl, rfl, exists_of_runs (by decide)⟩
theorem witness_Repeated : ∃ t u, exec (.setIntensity 15) demo = .next t ∧ statusField t.result = 0 ∧
    exec (.setIntensity 15) t = .next u ∧ statusField u.result = 0 := ⟨_, _, rfl, by decide, rfl, by decide⟩
theorem witness_Repeated_sendOne : ∃ t u, exec (.sendOne 1 0x1 0xFF) demo = .next t ∧ statusField t.result = 0 ∧
    exec (.sendOne 1 0x1 0xFF) t = .next u ∧ statusField u.result = 0 ∧ (0x1#4) ≠ 0xD ∧ (0x1#4) ≠ 0xE :=
  ⟨_, _, rfl, by decide, rfl, by decide, by decide, by decide⟩
theorem witness_WhatStands_range : ∃ t, exec (.setIntensity 16) demo = .next t ∧ (statusField t.result == 2) = true :=
  exists_of_next (P := fun t => statusField t.result == 2) (by decide)
theorem witness_WhatStands_transport : ∃ t, exec .flush { demo with answers := [.err] } = .next t ∧
    (statusField t.result == 3) = true := exists_of_next (P := fun t => statusField t.result == 3) (by decide)
theorem witness_Status_config : ∃ t, exec .init State.reset = .next t ∧ (statusField t.result == 1) = true :=
  exists_of_next (P := fun t => statusField t.result == 1) (by decide)
theorem witness_ResultNever : Instr.isCommand .flush = true := rfl
theorem witness_BlockNever : Instr.isCommand .flush = true ∧ ∃ t, exec .flush demo = .next t :=
  ⟨rfl, exists_of_runs (by decide)⟩
theorem witness_Assembled : assembleLine 2 "pixel_off 1, 7, 0x7" = some [.setPixel 1 7 7 false] := by decide
theorem witness_Assembled_line : ['m', 'a', 'p'] ≠ [] ∧ ∀ x ∈ ['m', 'a', 'p'], isBlank x = false ∧ x ≠ ';' := by
  simp [isBlank]
theorem test_numberText : numberText false 10 = ['1', '0'] ∧ numberText true 26 = ['0', 'x', '1', 'a'] := by
  decide +kernel
theorem witness_Pseudo : (1 ≤ 255 ∧ 255 ≤ 255) ∧ ¬ (1 ≤ 256 ∧ 256 ≤ 255) ∧ 7 < 8 ∧ 8 ≤ 8 ∧ 1 < 2 := by decide

end Sys2Proof.Tests
end

section
/-! A step, by its next input (10_state R20), and what an instruction can do to the block. -/

namespace Sys2Proof.Machine

variable {s t : State} {i : Instr} {rest : List Input}

theorem step_waits (hp : s.pending = []) : step s = .next s := by
  simp only [step, stepInput, hp]

theorem step_command_ok {w : Word} (hp : s.pending = .command w :: rest) (hd : decodeCommand w = .ok i) :
    step s = exec i { s with pending := rest, hpc := s.hpc + 1 } := by
  simp only [step, stepInput, hp, runInput, runCommand, hd]

theorem step_command_error {w : Word} {e : Reject} (hp : s.pending = .command w :: rest)
    (hd : decodeCommand w = .error e) :
    step s = .next { s with pending := rest, hpc := s.hpc + 1, result := 0x50000000 } := by
  simp only [step, stepInput, hp, runInput, runCommand, hd, rejectIllegal, raise_eq]
  rfl

theorem step_group {p : Fin 256} {w : GroupWord} (hp : s.pending = .group p w :: rest) :
    step s = exec (decodeGroup w) { s with pending := rest, groupPos := p } := by
  simp only [step, stepInput, hp, runInput, runGroup]

theorem step_reset (hp : s.pending = .reset :: rest) :
    step s = .next (resetBlock { s with pending := rest }) := by
  simp only [step, stepInput, hp, runInput]

/-- How a step from `s` answers a next state `t`. -/
inductive StepEnds (s t : State) : Prop where
  /-- Nothing was pending. -/
  | waited (h : t = s)
  /-- An instruction ran, with the inputs taken and the host's counter and the module's position set. -/
  | ran (i : Instr) (rest : List Input) (k : Nat) (p : Fin 256)
      (h : exec i { s with pending := rest, hpc := k, groupPos := p } = .next t)
  /-- An illegal command word. -/
  | rejected (rest : List Input)
      (h : t = { s with pending := rest, hpc := s.hpc + 1, result := 0x50000000 })
  /-- A reset of the block. -/
  | wasReset (rest : List Input) (hp : s.pending = .reset :: rest) (h : t = resetBlock { s with pending := rest })

/-- All that a step can do. -/
theorem step_ends (h : step s = .next t) : StepEnds s t := by
  rcases hp : s.pending with _ | ⟨_ | ⟨p, w⟩ | _, rest⟩
  case nil =>
    rw [step_waits hp, Host.Outcome.next.injEq] at h
    exact .waited h.symm
  case cons.command w =>
    cases hd : decodeCommand w
    case ok i => exact .ran i rest _ _ (step_command_ok hp hd ▸ h)
    case error e =>
      rw [step_command_error hp hd, Host.Outcome.next.injEq] at h
      exact .rejected rest h.symm
  case cons.group => exact .ran _ rest _ p (step_group hp ▸ h)
  case cons.reset =>
    rw [step_reset hp, Host.Outcome.next.injEq] at h
    exact .wasReset rest hp h.symm

/-! ### What an instruction can do to the block -/

/-- Before RESULT is written and frames are sent, an instruction leaves the block as it was, or has passed its checks and
gives the block its own effect. -/
theorem exec_changes (h : exec i s = .next t) :
    ∃ u, onlySent u t ∧ (u = s ∨ passed i s ∧ (u = quietEffect i s ∨ u = sendBase i s)) := by
  cases hc : i.isCommand
  case false =>
    obtain ⟨a, v, e⟩ := exec_group_eq hc
    obtain ⟨regs, d, e'⟩ := moduleTakes_frame a v s
    rw [e, e', Host.Outcome.next.injEq] at h
    exact ⟨s, h ▸ rfl, .inl rfl⟩
  case true =>
    have hs := sendLoop_onlySent i s
    cases exec_command_ends hc h
    case failed st hst h => exact ⟨s, h ▸ rfl, .inl rfl⟩
    case quiet hi hp d h => exact ⟨_, h ▸ rfl, .inr ⟨hp, .inl rfl⟩⟩
    case sent hi hp ha h => exact ⟨_, by rw [h, hs], .inr ⟨hp, .inr rfl⟩⟩
    case stopped hi hp k hk ha h => exact ⟨_, by rw [h, hs], .inr ⟨hp, .inr rfl⟩⟩

end Sys2Proof.Machine
end

section
/-! The invariant (10_state R34): the updates of the state and every instruction keep it. -/

namespace Sys2Proof.Machine

variable {s t : State} {i : Instr}

/-- The invariant speaks of no field that sending or RESULT changes. -/
theorem State.Inv.of_onlySent (hi : s.Inv) (h : onlySent s t) : t.Inv := by
  rw [h]
  exact hi

theorem State.Inv.fb_wf (hi : s.Inv) : Memory.wf s.fb := by
  obtain ⟨-, hw, -, -⟩ := hi
  exact hw

theorem inv_of_unconfigured (hm : s.mode = .unconfigured) (hf : Memory.wf s.fb) (hb : s.batch = []) : s.Inv :=
  ⟨by simp [hb], hf, fun _ => hb, fun h => by simp [hm] at h⟩

theorem memory_wf_nil : Memory.wf [] := ⟨List.Pairwise.nil, by simp⟩

theorem reset_inv : State.reset.Inv := inv_of_unconfigured rfl memory_wf_nil rfl

theorem resetBlock_inv (s : State) : (resetBlock s).Inv := inv_of_unconfigured rfl memory_wf_nil rfl

/-- A new Frame Buffer in canonical form keeps the invariant if it lists no address that does not exist. -/
theorem State.Inv.setFb {m : Memory} (hi : s.Inv) (hw : Memory.wf m)
    (hm : ∀ x ∈ m, x.1 < 8 * s.count ∨ x ∈ s.fb) : State.Inv { s with fb := m } := by
  obtain ⟨hl, -, hu, hc⟩ := hi
  refine ⟨hl, hw, hu, fun h => ?_⟩
  obtain ⟨h1, ho, hf, hb⟩ := hc h
  exact ⟨h1, ho, fun x hx => (hm x hx).elim id (hf x), hb⟩

theorem State.Inv.emptyBatch (hi : s.Inv) : State.Inv { s with batch := [] } := by
  obtain ⟨-, hw, -, hc⟩ := hi
  refine ⟨by simp, hw, fun _ => rfl, fun h => ?_⟩
  obtain ⟨h1, ho, hf, -⟩ := hc h
  exact ⟨h1, ho, hf, by simp⟩

theorem State.Inv.appendBatch {e : RegisterCommand} (hi : s.Inv) (hm : s.mode = .configured)
    (hl : s.batch.length ≠ Config.batchMax) (he : e.p.toNat < s.count) :
    State.Inv { s with batch := s.batch ++ [e] } := by
  obtain ⟨hb, hw, -, hc⟩ := hi
  obtain ⟨h1, ho, hf, hp⟩ := hc hm
  refine ⟨?_, hw, fun h => by simp [hm] at h, fun _ => ⟨h1, ho, hf, fun x hx => ?_⟩⟩
  · simp only [List.length_append, List.length_singleton]
    omega
  · rcases List.mem_append.mp hx with hx | hx
    · exact hp x hx
    · rw [List.mem_singleton.mp hx]
      exact he

/-- A list without repetition of `n` numbers below `n` is a permutation of them. -/
theorem perm_range_of_nodup {l : List Nat} {n : Nat} (hd : l.Nodup) (hl : l.length = n) (hn : ∀ x ∈ l, x < n) :
    l.Perm (List.range n) :=
  (hd.subperm fun x hx => List.mem_range.mpr (hn x hx)).perm_of_length_le (by simp [hl])

/-- The commits of INIT put the staged order in place. -/
theorem commitConfig_committedOrder (s : State) : (commitConfig s).committedOrder = s.stagedOrder :=
  List.map_congr_left fun m hm => by rw [commitConfig_orderAt (List.mem_range.mp hm)]

/-- A valid staging stages a permutation (41_config_init R145). -/
theorem stagedOrder_perm (hv : ValidStaging s) : s.stagedOrder.Perm (List.range s.stgN.toNat) := by
  have h := (validConfig_iff s).mpr hv
  simp only [State.validConfig, Bool.and_eq_true, List.all_eq_true, decide_eq_true_eq] at h
  obtain ⟨⟨-, hlt⟩, hd⟩ := h
  exact perm_range_of_nodup hd (by simp [State.stagedOrder]) hlt

theorem commitConfig_inv (hv : ValidStaging s) : (commitConfig s).Inv := by
  refine ⟨by simp, memory_wf_nil, fun _ => rfl, fun _ => ⟨?_, ?_, by simp, by simp⟩⟩
  · have h0 : s.stgN.toNat ≠ 0 := fun h => hv.1 (BitVec.eq_of_toNat_eq h)
    rw [commitConfig_count]
    omega
  · rw [commitConfig_committedOrder]
    exact stagedOrder_perm hv

/-- The effect of a command that sends nothing keeps the invariant. -/
theorem quietEffect_inv (hi : s.Inv) (hp : passed i s) : (quietEffect i s).Inv := by
  cases i
  case batchPut p a v =>
    obtain ⟨hm, hlt, hl⟩ := hp
    exact hi.appendBatch hm hl (Nat.lt_of_le_of_lt (by simpa using Nat.mod_le p 256) hlt)
  case setPixel m r c on =>
    obtain ⟨-, -, ha⟩ := hp
    refine hi.setFb (Memory.write_wf hi.fb_wf) fun x hx => ?_
    rcases Memory.mem_write hx with rfl | hx
    · exact .inl ha
    · exact .inr hx
  case clear => exact hi.setFb (Memory.clear_wf hi.fb_wf) fun _ hx => .inr (Memory.mem_clear hi.fb_wf hx)
  all_goals exact hi

/-- The state from which a command sends meets the invariant. -/
theorem sendBase_inv (hi : s.Inv) (hp : passed i s) : (sendBase i s).Inv := by
  cases i
  case init => exact commitConfig_inv hp
  case batchSend => exact hi.emptyBatch
  all_goals exact hi

/-- Every instruction keeps the invariant. -/
theorem exec_inv (hi : s.Inv) (h : exec i s = .next t) : t.Inv := by
  obtain ⟨u, ht, rfl | ⟨hp, rfl | rfl⟩⟩ := exec_changes h
  · exact hi.of_onlySent ht
  · exact (quietEffect_inv hi hp).of_onlySent ht
  · exact (sendBase_inv hi hp).of_onlySent ht

end Sys2Proof.Machine
end

section
/-! What an instruction can write (10_state R33), and what changes MODE (R21). -/

namespace Sys2Proof.Machine

variable {s t u : State} {i : Instr}

@[simp] theorem quietEffect_mode (i : Instr) (s : State) : (quietEffect i s).mode = s.mode := by cases i <;> rfl
@[simp] theorem quietEffect_N (i : Instr) (s : State) : (quietEffect i s).N = s.N := by cases i <;> rfl
@[simp] theorem quietEffect_order (i : Instr) (s : State) : (quietEffect i s).order = s.order := by cases i <;> rfl
@[simp] theorem quietEffect_orient (i : Instr) (s : State) : (quietEffect i s).orient = s.orient := by cases i <;> rfl
@[simp] theorem quietEffect_pending (i : Instr) (s : State) : (quietEffect i s).pending = s.pending := by cases i <;> rfl
@[simp] theorem quietEffect_hpc (i : Instr) (s : State) : (quietEffect i s).hpc = s.hpc := by cases i <;> rfl
@[simp] theorem quietEffect_groupPos (i : Instr) (s : State) : (quietEffect i s).groupPos = s.groupPos := by
  cases i <;> rfl

theorem quietEffect_stgN (h : ∀ n, i ≠ .cfgCount n) : (quietEffect i s).stgN = s.stgN := by
  cases i
  case cfgCount n => exact absurd rfl (h n)
  all_goals rfl

theorem quietEffect_staging (h : ∀ m p o, i ≠ .cfgModule m p o) :
    (quietEffect i s).stgOrder = s.stgOrder ∧ (quietEffect i s).stgOrient = s.stgOrient := by
  cases i
  case cfgModule m p o => exact absurd rfl (h m p o)
  all_goals exact ⟨rfl, rfl⟩

theorem quietEffect_fb (hp : ∀ m r c on, i ≠ .setPixel m r c on) (hc : i ≠ .clear) : (quietEffect i s).fb = s.fb := by
  cases i
  case setPixel m r c on => exact absurd rfl (hp m r c on)
  case clear => exact absurd rfl hc
  all_goals rfl

theorem quietEffect_batch (h : ∀ p a v, i ≠ .batchPut p a v) : (quietEffect i s).batch = s.batch := by
  cases i
  case batchPut p a v => exact absurd rfl (h p a v)
  all_goals rfl

@[simp] theorem sendBase_stgN (i : Instr) (s : State) : (sendBase i s).stgN = s.stgN := by cases i <;> rfl
@[simp] theorem sendBase_stgOrder (i : Instr) (s : State) : (sendBase i s).stgOrder = s.stgOrder := by cases i <;> rfl
@[simp] theorem sendBase_stgOrient (i : Instr) (s : State) : (sendBase i s).stgOrient = s.stgOrient := by cases i <;> rfl
@[simp] theorem sendBase_pending (i : Instr) (s : State) : (sendBase i s).pending = s.pending := by cases i <;> rfl
@[simp] theorem sendBase_hpc (i : Instr) (s : State) : (sendBase i s).hpc = s.hpc := by cases i <;> rfl
@[simp] theorem sendBase_groupPos (i : Instr) (s : State) : (sendBase i s).groupPos = s.groupPos := by cases i <;> rfl

theorem sendBase_committed (h : i ≠ .init) : (sendBase i s).mode = s.mode ∧ (sendBase i s).N = s.N ∧
    (sendBase i s).order = s.order ∧ (sendBase i s).orient = s.orient := by
  cases i
  case init => exact absurd rfl h
  all_goals exact ⟨rfl, rfl, rfl, rfl⟩

theorem sendBase_fb (h : i ≠ .init) : (sendBase i s).fb = s.fb := by
  cases i
  case init => exact absurd rfl h
  all_goals rfl

theorem sendBase_batch (hb : i ≠ .batchSend) (h : i ≠ .init) : (sendBase i s).batch = s.batch := by
  cases i
  case batchSend => exact absurd rfl hb
  case init => exact absurd rfl h
  all_goals rfl

/-- From `s` to `t` the instruction `i` wrote only what the summary table gives it: the column "written by" of 10_state
R33, but for RESULT. -/
structure WritesAsTabled (i : Instr) (s t : State) : Prop where
  committed : i ≠ .init → t.mode = s.mode ∧ t.N = s.N ∧ t.order = s.order ∧ t.orient = s.orient
  stgN : (∀ n, i ≠ .cfgCount n) → t.stgN = s.stgN
  staging : (∀ m p o, i ≠ .cfgModule m p o) → t.stgOrder = s.stgOrder ∧ t.stgOrient = s.stgOrient
  fb : (∀ m r c on, i ≠ .setPixel m r c on) → i ≠ .clear → i ≠ .init → t.fb = s.fb
  batch : (∀ p a v, i ≠ .batchPut p a v) → i ≠ .batchSend → i ≠ .init → t.batch = s.batch
  inputs : t.pending = s.pending ∧ t.hpc = s.hpc ∧ t.groupPos = s.groupPos

theorem writesAsTabled_refl (i : Instr) (s : State) : WritesAsTabled i s s :=
  ⟨fun _ => ⟨rfl, rfl, rfl, rfl⟩, fun _ => rfl, fun _ => ⟨rfl, rfl⟩, fun _ _ _ => rfl, fun _ _ _ => rfl, rfl, rfl, rfl⟩

theorem writesAsTabled_quietEffect (i : Instr) (s : State) : WritesAsTabled i s (quietEffect i s) where
  committed _ := by simp
  stgN := quietEffect_stgN
  staging := quietEffect_staging
  fb hp hc _ := quietEffect_fb hp hc
  batch hp _ _ := quietEffect_batch hp
  inputs := by simp

theorem writesAsTabled_sendBase (i : Instr) (s : State) : WritesAsTabled i s (sendBase i s) where
  committed := sendBase_committed
  stgN _ := sendBase_stgN i s
  staging _ := by simp
  fb _ _ := sendBase_fb
  batch _ := sendBase_batch
  inputs := by simp

/-- Sending and RESULT are not in the table's other rows. -/
theorem WritesAsTabled.of_onlySent (hw : WritesAsTabled i s u) (h : onlySent u t) : WritesAsTabled i s t := by
  obtain ⟨hc, hN, hs, hf, hb, hi⟩ := hw
  rw [h]
  exact ⟨hc, hN, hs, hf, hb, hi⟩

theorem exec_writesAsTabled (h : exec i s = .next t) : WritesAsTabled i s t := by
  obtain ⟨u, ht, rfl | ⟨-, rfl | rfl⟩⟩ := exec_changes h
  · exact (writesAsTabled_refl i u).of_onlySent ht
  · exact (writesAsTabled_quietEffect i s).of_onlySent ht
  · exact (writesAsTabled_sendBase i s).of_onlySent ht

/-- A group does not write RESULT. -/
theorem exec_group_result (hc : i.isCommand = false) (h : exec i s = .next t) : t.result = s.result := by
  obtain ⟨a, v, e⟩ := exec_group_eq hc
  rw [e, Host.Outcome.next.injEq] at h
  rw [← h, moduleTakes_result]

/-! ### MODE (10_state R21) -/

/-- A command that reads MODE begins with its check. -/
theorem exec_eq_configuredOnly (hn : i.needsConfig = true) (s : State) : ∃ r, exec i s = configuredOnly s r := by
  cases i
  case sendOne | batchPut | batchSend | setIntensity | setTestMode | setPixel | getPixel | clear | flush | map =>
    exact ⟨_, rfl⟩
  all_goals simp [Instr.needsConfig, Instr.isCommand] at hn

theorem exec_unconfigured (hn : i.needsConfig = true) (hm : s.mode = .unconfigured) :
    exec i s = .next { s with result := 0x40000000 } := by
  obtain ⟨r, e⟩ := exec_eq_configuredOnly hn s
  rw [e, configuredOnly_unconfigured hm]
  rfl

theorem onlySent_mode (h : onlySent s t) : t.mode = s.mode := by rw [h]

theorem exec_mode (h : exec i s = .next t) :
    t.mode = s.mode ∨ (i = .init ∧ ValidStaging s ∧ t.mode = .configured) := by
  obtain ⟨u, ht, rfl | ⟨hp, rfl | rfl⟩⟩ := exec_changes h
  · exact .inl (onlySent_mode ht)
  · exact .inl (by rw [onlySent_mode ht, quietEffect_mode])
  · by_cases hi : i = .init
    · subst hi
      exact .inr ⟨rfl, hp, onlySent_mode ht⟩
    · exact .inl (by rw [onlySent_mode ht, (sendBase_committed hi).1])

/-- Only a reset sets MODE back. -/
theorem step_unconfigures (h : step s = .next t) (hs : s.mode = .configured) (ht : t.mode = .unconfigured) :
    s.pending.head? = some .reset := by
  cases step_ends h
  case waited h => simp [h, hs] at ht
  case ran i rest k p h =>
    rcases exec_mode h with hm | ⟨-, -, hm⟩
    · simp [hm, hs] at ht
    · simp [hm] at ht
  case rejected rest h => simp [h, hs] at ht
  case wasReset rest hp h => simp [hp]

end Sys2Proof.Machine
end

section
/-! What no command reads: RESULT (10_state R23) and the chain (R36). -/

namespace Sys2Proof.Machine

variable {s : State} {i : Instr}

/-- `s` with another RESULT and another chain. -/
def State.withUnread (x : Word) (regs : Vector ModuleRegs 256) (s : State) : State :=
  { s with result := x, chain := regs }

/-- An answer with another chain. -/
def withChain (regs : Vector ModuleRegs 256) : Result → Result
  | .next t => .next { t with chain := regs }
  | .fault r => .fault r
  | .refused r => .refused r

/-- Whatever RESULT and the chain hold, the answer of `F` at `s` is one and the same but for the chain, and the chain after
it is a function of the chain before. -/
def ReadsNeither (s : State) (F : State → Result) : Prop :=
  ∃ (o : Result) (g : Vector ModuleRegs 256 → Vector ModuleRegs 256),
    ∀ x regs, F (s.withUnread x regs) = withChain (g regs) o

theorem ReadsNeither.congr {F G : State → Result} (hF : ReadsNeither s F)
    (h : ∀ x regs, G (s.withUnread x regs) = F (s.withUnread x regs)) : ReadsNeither s G := by
  obtain ⟨o, g, e⟩ := hF
  exact ⟨o, g, fun x regs => (h x regs).trans (e x regs)⟩

/-- Ending a command overwrites RESULT. -/
theorem readsNeither_raise (st : Status) (data : BitVec 28) (s : State) : ReadsNeither s (raise st data) :=
  ⟨raise st data s, id, fun _ _ => rfl⟩

/-- As `readsNeither_raise`, after an effect that looks at neither. -/
theorem readsNeither_finish (data : BitVec 28) {f : State → State}
    (hf : ∀ x regs, f (s.withUnread x regs) = (f s).withUnread x regs) : ReadsNeither s fun u => finish data (f u) :=
  ⟨finish data (f s), id, fun x regs => congrArg (finish data) (hf x regs)⟩

/-- A command that reads MODE. -/
theorem ReadsNeither.afterModeCheck {F : State → Result} (hF : ReadsNeither s F) :
    ReadsNeither s fun u => configuredOnly u (F u) := by
  cases hm : s.mode
  case unconfigured =>
    exact (readsNeither_raise .notInitialized 0 s).congr fun x regs =>
      configuredOnly_unconfigured (s := s.withUnread x regs) hm _
  case configured => exact hF.congr fun x regs => configuredOnly_configured (s := s.withUnread x regs) hm _

/-- A check of a condition that looks at neither. -/
theorem readsNeither_ite {c : State → Prop} [DecidablePred c] {F G : State → Result}
    (hc : ∀ x regs, c (s.withUnread x regs) ↔ c s) (hF : ReadsNeither s F) (hG : ReadsNeither s G) :
    ReadsNeither s fun u => if c u then F u else G u := by
  by_cases h : c s
  · exact hF.congr fun x regs => if_pos ((hc x regs).mpr h)
  · exact hG.congr fun x regs => if_neg (mt (hc x regs).mp h)

/-- A Frame Buffer access looks at neither. -/
theorem readsNeither_rowRead {q : PhysPixel} {F : Byte → State → Result} (hF : ∀ b, ReadsNeither s (F b)) :
    ReadsNeither s fun u => match rowRead q.rowAddress u with
      | some b => F b u
      | none => .fault (.rowAddress q.rowAddress) := by
  have hr : ∀ x regs, rowRead q.rowAddress (s.withUnread x regs) = rowRead q.rowAddress s := fun _ _ => rfl
  cases h : rowRead q.rowAddress s
  case none => exact ⟨.fault (.rowAddress q.rowAddress), id, fun x regs => by simp only [hr, h]; rfl⟩
  case some b => exact (hF b).congr fun x regs => by simp only [hr, h]

/-- A transmit loop latches its frames into the chain or leaves it unknown, and looks at neither. -/
theorem sendTxns_withUnread (n : Nat) (T : List SlotMap) (s : State) :
    ∃ (r : Sent) (g : Vector ModuleRegs 256 → Vector ModuleRegs 256),
      ∀ x regs, sendTxns n T (s.withUnread x regs) = { r with state := r.state.withUnread x (g regs) } := by
  rcases okFor_or_failsAt T.length s with h | ⟨k, hk, h⟩
  · exact ⟨sendTxns n T s, latchAll n T s.draws, fun x regs => by
      rw [sendTxns_ok n T _ h, sendTxns_ok n T (s.withUnread x regs) h]; rfl⟩
  · exact ⟨sendTxns n T s, fun _ => unknownChain (s.draws + k), fun x regs => by
      rw [sendTxns_err n T _ k hk h, sendTxns_err n T (s.withUnread x regs) k hk h]; rfl⟩

/-- Ending a transmit loop that starts from an effect that looks at neither. -/
theorem readsNeither_endSend (n : Nat) (T : List SlotMap) (d : Nat → BitVec 28) {f : State → State}
    (hf : ∀ x regs, f (s.withUnread x regs) = (f s).withUnread x regs) :
    ReadsNeither s fun u => endSend (d (sendTxns n T (f u)).count) (sendTxns n T (f u)) := by
  obtain ⟨⟨a, k, t⟩, g, e⟩ := sendTxns_withUnread n T (f s)
  refine ⟨endSend (d k) ⟨a, k, t⟩, g, fun x regs => ?_⟩
  simp only [hf, e]
  cases a <;> rfl

theorem readsNeither_sendSingle (f : List Byte) (s : State) : ReadsNeither s (sendSingle f) := by
  cases h : s.nextAnswer
  case ok =>
    exact ⟨finish 1 (transmit f s), latchFrame s.draws f, fun x regs => by
      have h' : (s.withUnread x regs).nextAnswer = .ok := h
      simp only [sendSingle, transmit, h, h']; rfl⟩
  case err =>
    exact ⟨raise .transportError 0 (transmit f s), fun _ => unknownChain s.draws, fun x regs => by
      have h' : (s.withUnread x regs).nextAnswer = .err := h
      simp only [sendSingle, transmit, h, h']; rfl⟩

theorem ReadsNeither.afterPositionCheck {F : State → Result} (p : Nat) (hF : ReadsNeither s F) :
    ReadsNeither s fun u => checkPosition p u (F u) :=
  readsNeither_ite (c := fun u => u.count ≤ p) (fun _ _ => Iff.rfl) (readsNeither_raise _ _ s) hF

theorem ReadsNeither.afterPixCheck {F : State → Result} (m r c : Nat) (hF : ReadsNeither s F) :
    ReadsNeither s fun u => checkPix m r c u (F u) :=
  (readsNeither_ite (c := fun u => u.count ≤ m ∨ 8 ≤ r ∨ 8 ≤ c) (fun _ _ => Iff.rfl) (readsNeither_raise _ _ s)
    hF).afterModeCheck

/-- No command reads RESULT or the chain. -/
theorem exec_readsNeither (hc : i.isCommand = true) (s : State) : ReadsNeither s (exec i) := by
  cases i <;> simp only [Instr.isCommand, Bool.false_eq_true] at hc
  case cfgCount n => exact readsNeither_finish 0 (f := quietEffect (.cfgCount n)) fun _ _ => rfl
  case cfgModule m p o => exact readsNeither_finish 0 (f := quietEffect (.cfgModule m p o)) fun _ _ => rfl
  case init =>
    exact readsNeither_ite (c := fun u => u.validConfig = true) (fun _ _ => Iff.rfl)
      ((readsNeither_endSend s.stgN.toNat (initSeq s.stgN.toNat) countData (f := commitConfig) fun _ _ => rfl).congr
        fun _ _ => rfl)
      (readsNeither_raise _ _ s)
  case sendOne p a v =>
    exact (((readsNeither_sendSingle (frameOne s.count p a v) s).congr fun _ _ => rfl).afterPositionCheck p).afterModeCheck
  case batchPut p a v =>
    refine ((readsNeither_ite (c := fun u => u.batch.length = Config.batchMax) (fun _ _ => Iff.rfl)
      (readsNeither_raise _ _ s) ?_).afterPositionCheck p).afterModeCheck
    exact (readsNeither_finish (countData (s.batch.length + 1)) (f := quietEffect (.batchPut p a v)) fun _ _ => rfl).congr
      fun _ _ => rfl
  case batchSend =>
    exact ((readsNeither_endSend s.count (partition s.batch) countData (f := sendBase .batchSend) fun _ _ => rfl).congr
      fun _ _ => rfl).afterModeCheck
  case setIntensity v =>
    exact (readsNeither_ite (c := fun _ => 15 < v) (fun _ _ => Iff.rfl) (readsNeither_raise _ _ s)
      ((readsNeither_sendSingle (frameAll s.count 0xA (BitVec.ofNat 8 v)) s).congr fun _ _ => rfl)).afterModeCheck
  case setTestMode b =>
    exact ((readsNeither_sendSingle (frameAll s.count 0xF ((BitVec.ofBool b).setWidth 8)) s).congr
      fun _ _ => rfl).afterModeCheck
  case setPixel m r c on =>
    exact ((readsNeither_rowRead (q := lmap s m r c) fun b => readsNeither_finish 0
      (f := rowWrite (lmap s m r c).rowAddress (setCell b (lmap s m r c).pc on)) fun _ _ => rfl).congr
      fun _ _ => rfl).afterPixCheck m r c
  case getPixel m r c =>
    exact ((readsNeither_rowRead (q := lmap s m r c) fun b =>
      readsNeither_finish (bitData (getCell b (lmap s m r c).pc)) (f := id) fun _ _ => rfl).congr
      fun _ _ => rfl).afterPixCheck m r c
  case clear =>
    exact (readsNeither_finish 0 (f := quietEffect .clear) fun _ _ => rfl).afterModeCheck
  case flush =>
    exact ((readsNeither_endSend s.count ((List.range 8).map (rowSlots s)) (fun _ => 8) (f := id) fun _ _ => rfl).congr
      fun _ _ => rfl).afterModeCheck
  case map m r c =>
    exact ((readsNeither_finish (mapData (lmap s m r c).p (lmap s m r c).pr (lmap s m r c).pc) (f := id)
      fun _ _ => rfl).congr fun _ _ => rfl).afterPixCheck m r c

end Sys2Proof.Machine
end

section
/-! The statements of 10_state, from the lemmas above. -/

namespace Sys2Proof.Machine

/-- Settles O3, by what each kind of step does: the invariant speaks of no input and of no counter, an instruction keeps
it, and a reset puts the block into a state that meets it. -/
theorem stepKeepsInvariant : Obligations.StepKeepsInvariant := by
  intro s t hi h
  cases step_ends h
  case waited h => exact h ▸ hi
  case ran i rest k p h => exact exec_inv (s := { s with pending := rest, hpc := k, groupPos := p }) hi h
  case rejected rest h => exact h ▸ hi
  case wasReset rest hp h => exact h ▸ resetBlock_inv _

/-- Settles O51: the commands that read MODE begin with its check, and only INIT's commits and a reset write MODE. -/
theorem modeGatesCommands : Obligations.ModeGatesCommands :=
  ⟨rfl, fun _ _ => exec_unconfigured, fun _ _ _ => exec_mode, fun _ _ => step_unconfigures⟩

/-- Settles O52: an instruction leaves the block as it was or gives it its own effect, and each effect writes what the
table gives its instruction. -/
theorem onlyTheNamedCommandsWrite : Obligations.OnlyTheNamedCommandsWrite := by
  intro i s t h
  obtain ⟨hc, hN, hs, hf, hb, hi⟩ := exec_writesAsTabled h
  exact ⟨hc, hN, hs, hf, hb, fun hg => exec_group_result hg h, hi⟩

/-- Settles O57: with the chain as it is, the answer is one whatever RESULT holds. -/
theorem resultNeverInfluencesACommand : Obligations.ResultNeverInfluencesACommand := by
  intro i s x hc
  obtain ⟨o, g, h⟩ := exec_readsNeither hc s
  exact (h x s.chain).trans (h s.result s.chain).symm

/-- Settles O58: the answer is one but for the chain, whatever the chain holds. -/
theorem blockNeverReadsTheChain : Obligations.BlockNeverReadsTheChain := by
  intro i s t regs hc ht
  obtain ⟨o, g, h⟩ := exec_readsNeither hc s
  have ho : withChain (g s.chain) o = .next t := (h s.result s.chain).symm.trans ht
  refine ⟨g regs, (h s.result regs).trans ?_⟩
  cases o <;> cases ho
  rfl

/-- Settles O2: the reset state is Unconfigured, and its Frame Buffer and batch are empty. -/
theorem resetMeetsInvariant : Obligations.ResetMeetsInvariant := reset_inv

/-- Settles O11, by the equation of a step for each kind of input. -/
theorem stepRunsDecodedInstruction : Obligations.StepRunsDecodedInstruction :=
  ⟨fun _ _ _ _ => step_command_ok, fun _ _ _ _ => step_command_error, fun _ _ _ _ => step_group⟩

end Sys2Proof.Machine
end

section
/-! What the commands of 20_memory leave outside the block (R61): a command that transmits nothing leaves it as it was, and
a command answered OK that sends the same groups again leaves every register as the first one did. Beside it the stop of the
pixel commands at a row address that does not exist (R51). -/

namespace Sys2Proof.Machine

variable {s t u : State} {i : Instr}

/-! ### The commands that transmit nothing -/

/-- Such a command writes RESULT, after its effect on the block or after none. -/
theorem exec_quiet (hc : i.isCommand = true) (hi : i.transmits = false) (h : exec i s = .next t) :
    onlyResult s t ∨ onlyResult (quietEffect i s) t := by
  cases exec_command_ends hc h
  case failed st hst h => exact .inl (h ▸ rfl)
  case quiet hi' hp d h => exact .inr (h ▸ rfl)
  case sent hi' hp ha h => simp [hi] at hi'
  case stopped hi' hp k hk ha h => simp [hi] at hi'

theorem onlyResult_sameOutside (h : onlyResult s t) : SameOutside t s := by
  rw [h]
  exact .refl _

theorem exec_quiet_sameOutside (hc : i.isCommand = true) (hi : i.transmits = false) (h : exec i s = .next t) :
    SameOutside t s := by
  rcases exec_quiet hc hi h with ht | ht
  · exact onlyResult_sameOutside ht
  · have hq := quietEffect_sameOutside i s
    rw [ht]
    exact hq

/-! ### Repeating a command that sends -/

theorem isCommand_of_transmits (hi : i.transmits = true) : i.isCommand = true := by
  cases i
  case init | sendOne | batchSend | setIntensity | setTestMode | flush => rfl
  all_goals simp [Instr.transmits] at hi

/-- A sending command that answers OK has sent all its slot maps, and the chain has latched them. -/
theorem exec_ok_latches (hi : i.transmits = true) (h : exec i s = .next t) (h0 : statusField t.result = 0) :
    onlySent (sendBase i s) t ∧ t.chain = latchAll (sendBase i s).count (sendMaps i s) s.draws s.chain := by
  cases exec_command_ends (isCommand_of_transmits hi) h
  case failed st hst h =>
    rw [h, statusField_resultWord] at h0
    rcases hst with rfl | rfl | ⟨rfl, -⟩ <;> simp [Status.code] at h0
  case quiet hi' hp d h => simp [hi] at hi'
  case sent hi' hp ha h =>
    obtain ⟨-, -, hregs, hdraws⟩ := sendBase_sameOutside i s
    have hs := sendLoop_onlySent i s
    refine ⟨by rw [h, hs], ?_⟩
    rw [h, sendLoop, sendTxns_ok _ _ _ ha, hregs, hdraws]
  case stopped hi' hp k hk ha h =>
    rw [h, statusField_resultWord] at h0
    simp [Status.code] at h0

/-- What a command sends depends on no field that sending or RESULT changes. -/
theorem sendMaps_of_onlySent (h : onlySent s t) : sendMaps i t = sendMaps i s := by
  rw [h]
  cases i <;> rfl

/-- The module at `p` takes from the slot map a group for the No-Op or for a register the chip names: none for 0xD or 0xE
(30_encoding R87, U3). -/
def SlotMap.namedAt (S : SlotMap) (p : Nat) : Prop := unnamedReg ((S.at p).getD noopGroup).addr = false

/-- A list of slot maps, all answered `Ok`, either gives a register a value of its own or leaves it, whatever the chain held
and whichever draws are passed. -/
theorem regAt_latchAll {n p : Nat} (b : BitVec 4) (h : p < 256) (hp : p < n) (T : List SlotMap)
    (hT : ∀ S ∈ T, S.namedAt p) :
    ∃ w : Option Byte, ∀ d regs, regAt (chainAt (latchAll n T d regs) p) b = w.getD (regAt (chainAt regs p) b) := by
  induction T with
  | nil => exact ⟨none, fun _ _ => rfl⟩
  | cons S T ih =>
    obtain ⟨w, hw⟩ := ih fun S' hS' => hT S' (List.mem_cons_of_mem S hS')
    have hS : S.namedAt p := hT S List.mem_cons_self
    cases w with
    | some v => exact ⟨some v, fun d regs => hw (d + 1) _⟩
    | none =>
      refine ⟨if ((S.at p).getD noopGroup).addr = b ∧ b ≠ 0x0 then some ((S.at p).getD noopGroup).value else none,
        fun d regs => ?_⟩
      rw [latchAll, hw, Option.getD_none, chainAt_latch_buildFrame d S regs h hp, regAt_writeReg hS]
      split <;> rfl

/-- A slot map that has at `p` a group for a named register, or nothing. -/
theorem namedAt_of_at {S : SlotMap} {p : Nat} {g : Group} {c : Prop} [Decidable c]
    (hS : S.at p = if c then some g else none) (hg : unnamedReg g.addr = false) : S.namedAt p := by
  rw [SlotMap.namedAt, hS]
  split
  · exact hg
  · rfl

theorem oneSlot_namedAt {g : Group} (h : unnamedReg g.addr = false) (p q : Nat) : (oneSlot p g).namedAt q :=
  namedAt_of_at (oneSlot_at p q g) h

theorem allSlots_namedAt {g : Group} (h : unnamedReg g.addr = false) (n q : Nat) : (allSlots n g).namedAt q :=
  namedAt_of_at (allSlots_at n q g) h

/-- The rows of FLUSH go to the registers 0x1 to 0x8. -/
theorem flushAddress_named : ∀ pr, pr < 8 → unnamedReg (BitVec.ofNat 4 (pr + 1)) = false := by decide

theorem rowSlots_namedAt (s : State) {pr : Nat} (h : pr < 8) (q : Nat) : (rowSlots s pr).namedAt q :=
  namedAt_of_at (rowSlots_at s pr q) (flushAddress_named pr h)

/-- A command that transmits, starts sending from the state as it is, and gives no module a group for 0xD or 0xE. -/
structure Repeatable (i : Instr) : Prop where
  transmits : i.transmits = true
  base : ∀ s, sendBase i s = s
  named : ∀ s p, ∀ S ∈ sendMaps i s, S.namedAt p

theorem repeatable_flush : Repeatable .flush := by
  refine ⟨rfl, fun _ => rfl, fun s p S hS => ?_⟩
  obtain ⟨pr, hpr, rfl⟩ := List.mem_map.mp hS
  exact rowSlots_namedAt s (List.mem_range.mp hpr) p

theorem repeatable_setIntensity (v : Nat) : Repeatable (.setIntensity v) := by
  refine ⟨rfl, fun _ => rfl, fun s p S hS => ?_⟩
  rw [List.mem_singleton.mp hS]
  exact allSlots_namedAt rfl _ p

theorem repeatable_setTestMode (b : Bool) : Repeatable (.setTestMode b) := by
  refine ⟨rfl, fun _ => rfl, fun s p S hS => ?_⟩
  rw [List.mem_singleton.mp hS]
  exact allSlots_namedAt rfl _ p

theorem repeatable_sendOne (q : Nat) {a : BitVec 4} (v : Byte) (hD : a ≠ 0xD) (hE : a ≠ 0xE) :
    Repeatable (.sendOne q a v) := by
  refine ⟨rfl, fun _ => rfl, fun s p S hS => ?_⟩
  rw [List.mem_singleton.mp hS]
  exact oneSlot_namedAt (Bool.or_eq_false_iff.mpr ⟨beq_false_of_ne hD, beq_false_of_ne hE⟩) q p

/-- A repeatable command that answers OK has latched its slot maps, and the next one would send the same. -/
theorem Repeatable.exec_ok (hr : Repeatable i) (h : exec i s = .next t) (h0 : statusField t.result = 0) :
    t.chain = latchAll t.count (sendMaps i t) s.draws s.chain := by
  obtain ⟨ht, hl⟩ := exec_ok_latches hr.transmits h h0
  rw [hr.base] at ht hl
  have hN : t.count = s.count := by rw [ht]; rfl
  rw [hl, sendMaps_of_onlySent ht, hN]

/-- The second of two repeatable commands in a row changes no register. -/
theorem Repeatable.reg_eq (hr : Repeatable i) (hs : exec i s = .next t) (h0 : statusField t.result = 0)
    (ht : exec i t = .next u) (h1 : statusField u.result = 0) {p : Nat} (hp : p < t.count) (b : BitVec 4) :
    u.reg p b = t.reg p b := by
  have hp256 : p < 256 := Nat.lt_trans hp t.N.isLt
  obtain ⟨w, hw⟩ := regAt_latchAll b hp256 hp (sendMaps i t) (hr.named t p)
  have htc := hr.exec_ok hs h0
  obtain ⟨-, huc⟩ := exec_ok_latches hr.transmits ht h1
  rw [hr.base] at huc
  calc u.reg p b = w.getD (t.reg p b) := by rw [State.reg, huc, hw]; rfl
    _ = w.getD (w.getD (s.reg p b)) := by rw [State.reg, htc, hw]; rfl
    _ = w.getD (s.reg p b) := by cases w <;> rfl
    _ = t.reg p b := by rw [State.reg, State.reg, htc, hw]

/-! ### A row address that does not exist -/

/-- A position at or beyond `N` has no row (20_memory R51). -/
theorem rowRead_beyond {q : PhysPixel} (h : s.count ≤ q.p.toNat) : rowRead q.rowAddress s = none :=
  rowRead_of_le (Nat.le_trans (Nat.mul_le_mul_left 8 h) (Nat.le_add_right _ _))

end Sys2Proof.Machine
end

section
/-! The statements of 20_memory, from the lemmas above. -/

namespace Sys2Proof.Machine

/-- Settles O54: a register is given a value of its own by the groups of such a command, or left; the second command sends
the same groups, so it finds the register as it would leave it. -/
theorem repeatedCommandLeavesTheChain : Obligations.RepeatedCommandLeavesTheChain := by
  intro i s t u hi hs h0 ht h1 p b hp
  have hr : Repeatable i := by
    rcases hi with rfl | ⟨v, rfl⟩ | ⟨x, rfl⟩ | ⟨q, a, v, rfl, hD, hE⟩
    · exact repeatable_flush
    · exact repeatable_setIntensity v
    · exact repeatable_setTestMode x
    · exact repeatable_sendOne q v hD hE
  exact hr.reg_eq hs h0 ht h1 hp b

/-- Settles O53: a command that transmits nothing writes RESULT after its effect on the block, which GET_PIXEL and MAP do not
have. -/
theorem onlyTransmittingCommandsReachTheChain : Obligations.OnlyTransmittingCommandsReachTheChain := by
  intro i s t hc hi h
  obtain ⟨hlog, hans, hregs, -⟩ := exec_quiet_sameOutside hc hi h
  refine ⟨hlog, hregs, hans, ?_⟩
  rintro ⟨m, r, c, rfl | rfl⟩ <;> exact (exec_quiet hc hi h).elim id id

/-- Settles O42: past the check of R175 both commands read the row byte, and there is none. -/
theorem pixelCommandsFaultOutsideFrameBuffer : Obligations.PixelCommandsFaultOutsideFrameBuffer := by
  intro m r c on s pr pc hm hv ho hq
  have hl : lmap s m r c = ⟨s.orderAt m, pr, pc⟩ := by simp only [lmap, hq]
  have hrow : rowRead (lmap s m r c).rowAddress s = none := rowRead_beyond (by rw [hl]; exact ho)
  constructor
  · simp only [exec, execSetPixel, checkPix_valid hm hv, hrow]
    rw [hl, PhysPixel.rowAddress]
  · simp only [exec, execGetPixel, checkPix_valid hm hv, hrow]
    rw [hl, PhysPixel.rowAddress]

end Sys2Proof.Machine
end

section
/-! The decoder and the encoder as inverses of each other (30_encoding R81, R87, R88), from the decoder by opcode and the
fields of the words the encoder builds. -/

namespace Sys2Proof

variable {w : Word} {i : Instr}

/-! ### Groups -/

/-- The decoder reads the address nibble and the value byte of a group, and nothing above them (40_protocol R105). -/
theorem decodeGroup_append (x a : BitVec 4) (v : Byte) : decodeGroup (x ++ a ++ v) = groupInstr a v := by
  have ha : (x ++ a ++ v).extractLsb' 8 4 = a :=
    (extract_high (x ++ a) v 0 4).trans ((extract_low x a (Nat.le_refl _)).trans (extract_all a))
  have hv : (x ++ a ++ v).extractLsb' 0 8 = v := (extract_low (x ++ a) v (Nat.le_refl _)).trans (extract_all v)
  rw [decodeGroup, ha, hv]

theorem encode_groupInstr (a : BitVec 4) (v : Byte) : encode (groupInstr a v) = .group (wordG a v) := by
  rcases four_bits a with
    rfl | rfl | rfl | rfl | rfl | rfl | rfl | rfl | rfl | rfl | rfl | rfl | rfl | rfl | rfl | rfl <;> rfl

/-- An instruction that is no command is the instruction of some group. -/
theorem exists_groupInstr_eq (hc : i.isCommand = false) : ∃ a v, i = groupInstr a v := by
  cases i <;> simp only [Instr.isCommand, Bool.true_eq_false] at hc
  case max7219Noop v => exact ⟨0x0, v, rfl⟩
  case max7219Digit0 v => exact ⟨0x1, v, rfl⟩
  case max7219Digit1 v => exact ⟨0x2, v, rfl⟩
  case max7219Digit2 v => exact ⟨0x3, v, rfl⟩
  case max7219Digit3 v => exact ⟨0x4, v, rfl⟩
  case max7219Digit4 v => exact ⟨0x5, v, rfl⟩
  case max7219Digit5 v => exact ⟨0x6, v, rfl⟩
  case max7219Digit6 v => exact ⟨0x7, v, rfl⟩
  case max7219Digit7 v => exact ⟨0x8, v, rfl⟩
  case max7219DecodeMode v => exact ⟨0x9, v, rfl⟩
  case max7219Intensity v => exact ⟨0xA, v, rfl⟩
  case max7219ScanLimit v => exact ⟨0xB, v, rfl⟩
  case max7219Shutdown v => exact ⟨0xC, v, rfl⟩
  case max7219AddrD v => exact ⟨0xD, v, rfl⟩
  case max7219AddrE v => exact ⟨0xE, v, rfl⟩
  case max7219DisplayTest v => exact ⟨0xF, v, rfl⟩

/-! ### Commands -/

/-- An encoded command with operands that fit decodes to itself: the opcode selects its row, the reserved fields are 0, and
each field holds its operand. -/
theorem decode_encode_command (hc : i.isCommand = true) (hi : i.wellFormed = true) : decode (encode i) = .ok i := by
  cases i <;> simp only [Instr.isCommand, Bool.false_eq_true] at hc <;>
    simp only [Instr.wellFormed, Bool.and_eq_true] at hi
  case init | batchSend | clear | flush | setTestMode b => simp [encode, decode, decodeCommand_eq]
  case cfgCount n | setIntensity n | sendOne n a v | batchPut n a v =>
    simp [encode, decode, decodeCommand_eq, byteField_toNat hi]
  case cfgModule m p o =>
    obtain ⟨hm, hp⟩ := hi
    simp [encode, decode, decodeCommand_eq, byteField_toNat hm, byteField_toNat hp]
  case setPixel m r c on | getPixel m r c | map m r c =>
    obtain ⟨⟨hm, hr⟩, hc⟩ := hi
    simp [encode, decode, decodeCommand_eq, byteField_toNat hm, byteField_toNat hr, byteField_toNat hc]

/-- A row's decoder answers an instruction exactly where the row's reserved bits are 0. -/
theorem ite_eq_ok {p : Prop} [Decidable p] {i j : Instr} {e : Reject} :
    (if p then Except.ok j else .error e) = .ok i ↔ p ∧ j = i := by
  by_cases h : p <;> simp [h]

/-- A row's decoder answers an error exactly where a reserved bit of the row is 1. -/
theorem exists_ite_eq_error {p : Prop} [Decidable p] {i : Instr} {e : Reject} :
    (∃ e', (if p then Except.ok i else .error e) = .error e') ↔ ¬ p := by
  by_cases h : p <;> simp [h]

theorem wellFormed_of_decodeCommand (h : decodeCommand w = .ok i) : i.wellFormed = true := by
  rw [decodeCommand_eq] at h
  split at h
  case h_14 => cases h
  all_goals
    rw [ite_eq_ok] at h
    obtain ⟨-, rfl⟩ := h
    simp only [Instr.wellFormed, fits_fieldHi, fits_fieldMid, fits_fieldLo, Bool.and_self]

/-- A word that decodes is made of the opcode, the fields that are the operands, and reserved fields that are 0. -/
theorem encode_of_decodeCommand (h : decodeCommand w = .ok i) : encode i = .command w := by
  have hop {n : Nat} (hn : (fieldOp w).toNat = n) : fieldOp w = BitVec.ofNat 4 n := by
    rw [← hn, BitVec.ofNat_toNat, BitVec.setWidth_eq]
  rw [decodeCommand_eq] at h
  split at h
  case h_14 => cases h
  all_goals
    rw [ite_eq_ok] at h
    obtain ⟨h0, rfl⟩ := h
    apply congrArg Code.command
  case h_3 ho | h_6 ho | h_11 ho | h_12 ho => exact eq_wordZ (hop ho) h0
  case h_1 ho | h_7 ho => exact eq_wordB (hop ho) h0
  case h_8 ho => exact eq_wordT (hop ho) h0
  case h_2 ho =>
    obtain ⟨h24, h4⟩ := h0
    exact eq_wordM (hop ho) h24 h4
  case h_4 ho | h_5 ho => exact eq_wordS (hop ho) h0
  case h_9 ho => exact eq_wordP (hop ho) h0
  case h_10 ho | h_13 ho =>
    obtain ⟨h25, hon⟩ := reserved24_split h0
    exact hon ▸ eq_wordP (hop ho) h25

end Sys2Proof
end

section
/-! Issuing a word (30_encoding R81, 60_exceptions R222), placing one (log 9), and the statuses of a command (R85). -/

namespace Sys2Proof.Machine

variable {s t : State} {i : Instr}

theorem runCommand_error {w : Word} {e : Reject} (h : decodeCommand w = .error e) (s : State) :
    runCommand w s = .next { s with hpc := s.hpc + 1, result := 0x50000000 } := by
  simp only [runCommand, h, rejectIllegal, raise_eq]
  rfl

/-- The sizes of word that the opcode table has. -/
theorem codeOfTable_cases {nbits w : Nat} {c : Code} (h : codeOfTable nbits w = some c) :
    (nbits = 32 ∧ c = .command (BitVec.ofNat 32 w)) ∨ (nbits = 16 ∧ c = .group (BitVec.ofNat 16 w)) := by
  unfold codeOfTable at h
  split at h
  case isTrue h32 => exact .inl ⟨h32.1, (Option.some.inj h).symm⟩
  case isFalse =>
    split at h
    case isTrue h16 => exact .inr ⟨h16.1, (Option.some.inj h).symm⟩
    case isFalse => cases h

theorem decodeTableWord_eq_some {nbits w : Nat} (h : decodeTableWord nbits w = some i) :
    ∃ c, codeOfTable nbits w = some c ∧ decode c = .ok i := by
  unfold decodeTableWord at h
  split at h
  case h_1 c hc =>
    refine ⟨c, hc, ?_⟩
    cases hd : decode c <;> rw [hd] at h <;> cases h
    rfl
  case h_2 => cases h

theorem withFetchWord_of_codeOfTable {nbits w : Nat} {c : Code} (h : codeOfTable nbits w = some c) (s : State) :
    s.withFetchWord nbits w = offer c s := by
  rw [State.withFetchWord, h]

theorem step_offer_command {w : Word} (h : decodeCommand w = .ok i) (s : State) :
    step (offer (.command w) s) = exec i { s with hpc := s.hpc + 1 } :=
  step_command_ok rfl h

theorem step_offer_group (w : GroupWord) (s : State) : step (offer (.group w) s) = exec (decodeGroup w) s :=
  step_group rfl

/-- The statuses of a command (60_exceptions R221): CONFIG_ERROR comes from INIT's check alone, TRANSPORT_ERROR from a
command that transmits, and ILLEGAL_COMMAND from no decoded command. -/
theorem exec_status (hc : i.isCommand = true) (h : exec i s = .next t) :
    statusField t.result = 0 ∨ (statusField t.result = 1 ∧ i = .init) ∨ statusField t.result = 2 ∨
      (statusField t.result = 3 ∧ i.transmits = true) ∨ statusField t.result = 4 := by
  cases exec_command_ends hc h
  case failed st hst h =>
    rw [h, statusField_resultWord]
    rcases hst with rfl | rfl | ⟨rfl, hi⟩
    · exact .inr (.inr (.inr (.inr rfl)))
    · exact .inr (.inr (.inl rfl))
    · exact .inr (.inl ⟨rfl, hi⟩)
  case quiet hi hp d h => exact .inl (by rw [h, statusField_resultWord]; rfl)
  case sent hi hp ha h => exact .inl (by rw [h, statusField_resultWord]; rfl)
  case stopped hi hp k hk ha h => exact .inr (.inr (.inr (.inl ⟨by rw [h, statusField_resultWord]; rfl, hi⟩)))

end Sys2Proof.Machine
end

section
/-! What a line assembles to (30_encoding R88, R89). -/

namespace Sys2Proof.Machine

variable {N : Nat} {i : Instr} {is : List Instr} {mnemonic : String} {ops : List Nat}

/-- A pseudo-instruction expands to commands. -/
theorem isCommand_of_expand {x : Pseudo} (h : expand N x = some is) : ∀ i ∈ is, i.isCommand = true := by
  cases x <;> simp only [expand, Option.ite_none_right_eq_some, Option.some.injEq] at h
  case cfgLinear n =>
    obtain ⟨-, rfl⟩ := h
    simp [Instr.isCommand]
  case writeRow p r v => obtain ⟨-, rfl⟩ := h; simp [Instr.isCommand]
  case noopFrame => subst h; simp [Instr.isCommand]
  case shutdown p x => obtain ⟨-, rfl⟩ := h; simp [Instr.isCommand]
  case broadcast n a v =>
    obtain ⟨-, rfl⟩ := h
    simp [Instr.isCommand, or_imp, forall_and]
  case pixelOff m r c => subst h; simp [Instr.isCommand]

theorem isCommand_of_readOperation (h : readOperation N mnemonic ops = some is) : ∀ i ∈ is, i.isCommand = true := by
  have single {i : Instr} (hi : i.isCommand = true) (h : some [i] = some is) : ∀ i ∈ is, i.isCommand = true := by
    cases h
    simpa using hi
  unfold readOperation at h
  split at h
  -- the mnemonics of a command, by how many of their operands are read as bits
  case h_1 | h_3 | h_6 | h_7 | h_10 | h_11 | h_12 | h_13 => exact single rfl h
  case h_2 | h_8 | h_9 =>
    obtain ⟨x, -, h⟩ := Option.bind_eq_some_iff.mp h
    exact single rfl h
  case h_4 | h_5 =>
    obtain ⟨x, -, h⟩ := Option.bind_eq_some_iff.mp h
    obtain ⟨y, -, h⟩ := Option.bind_eq_some_iff.mp h
    exact single rfl h
  -- the pseudo-instructions, likewise
  case h_14 | h_16 | h_17 | h_19 => exact isCommand_of_expand h
  case h_15 =>
    obtain ⟨x, -, h⟩ := Option.bind_eq_some_iff.mp h
    exact isCommand_of_expand h
  case h_18 =>
    obtain ⟨x, -, h⟩ := Option.bind_eq_some_iff.mp h
    obtain ⟨y, -, h⟩ := Option.bind_eq_some_iff.mp h
    exact isCommand_of_expand h
  case h_20 => cases h

theorem isCommand_of_assembleOperation (h : assembleOperation N mnemonic ops = some is) :
    ∀ i ∈ is, i.isCommand = true := by
  rw [assembleOperation, Option.filter_eq_some_iff] at h
  exact isCommand_of_readOperation h.1

/-- A line that assembles has no mnemonic and stands for no command, or is a mnemonic with its operands. -/
theorem assembleLine_eq_some {line : String} (h : assembleLine N line = some is) :
    is = [] ∨ ∃ mnemonic ops, assembleOperation N mnemonic ops = some is := by
  unfold assembleLine at h
  dsimp only at h
  split at h
  case isTrue => exact .inl (Option.some.inj h).symm
  case isFalse =>
    obtain ⟨ops, -, h⟩ := Option.bind_eq_some_iff.mp h
    exact .inr ⟨_, ops, h⟩

/-- The instructions of a line that assembles are commands with operands that fit. -/
theorem wellFormed_command_of_mem_assembleLine {line : String} (h : assembleLine N line = some is) (hi : i ∈ is) :
    i.wellFormed = true ∧ i.isCommand = true := by
  rcases assembleLine_eq_some h with rfl | ⟨mnemonic, ops, h⟩
  · exact absurd hi List.not_mem_nil
  · exact ⟨wellFormed_of_assembleOperation h i hi, isCommand_of_assembleOperation h i hi⟩

/-- Two operands that do not both fit give none. -/
theorem operandBits_bind_bind (w x w' x' : Nat) (f : BitVec w → BitVec w' → Option (List Instr)) :
    ((operandBits w x).bind fun a => (operandBits w' x').bind (f a)) =
      if x < 2 ^ w ∧ x' < 2 ^ w' then f (BitVec.ofNat w x) (BitVec.ofNat w' x') else none := by
  rw [operandBits_bind, operandBits_bind, ite_and]

/-- A mnemonic that reads as one command where `p` holds assembles to it where its operands fit as well. -/
theorem assembleOperation_single {p q : Prop} [Decidable p] [Decidable q]
    (hr : readOperation N mnemonic ops = if p then some [i] else none) (hq : p ∧ i.wellFormed = true ↔ q) :
    assembleOperation N mnemonic ops = if q then some [i] else none := by
  rw [assembleOperation, hr, ← if_congr hq rfl rfl, ite_and]
  split
  · exact filter_wellFormed_singleton i
  · rfl

/-- A mnemonic that reads as a pseudo-instruction where `p` holds assembles to its expansion. -/
theorem assembleOperation_pseudo {p : Prop} [Decidable p] {x : Pseudo}
    (hr : readOperation N mnemonic ops = if p then expand N x else none) :
    assembleOperation N mnemonic ops = if p then fittingExpansion N x else none := by
  rw [assembleOperation, hr]
  split <;> rfl

theorem fits_eight {x : Nat} : fits 8 x = true ↔ x < 256 := decide_eq_true_iff

end Sys2Proof.Machine
end

section
/-! The statements of 30_encoding, from the lemmas above. -/

namespace Sys2Proof.Machine

/-- Settles O6: a command decodes by its opcode, its reserved fields and its fields; a group by its address nibble. -/
theorem decodeOfEncode : Obligations.DecodeOfEncode := by
  intro i hi
  cases hc : i.isCommand
  case true => exact decode_encode_command hc hi
  case false =>
    obtain ⟨a, v, rfl⟩ := exists_groupInstr_eq hc
    rw [encode_groupInstr]
    exact congrArg Except.ok (decodeGroup_append 0#4 a v)

/-- Settles O7: the row that selects the word fixes its opcode and its reserved bits, and the operands are the rest. -/
theorem encodeOfDecode : Obligations.EncodeOfDecode :=
  fun _ _ h => ⟨wellFormed_of_decodeCommand h, encode_of_decodeCommand h⟩

/-- Settles O8, by the opcode: 0x0, 0xE and 0xF have no row, and every other opcode has one row and its reserved bits. -/
theorem illegalWordsAreTheReservedOnes : Obligations.IllegalWordsAreTheReservedOnes := by
  intro w
  refine ⟨?_, fun e s h => runCommand_error h s⟩
  rw [decodeCommand_eq, show w.extractLsb' 28 4 = fieldOp w from rfl]
  rcases four_bits (fieldOp w) with h | h | h | h | h | h | h | h | h | h | h | h | h | h | h | h <;> rw [h]
  -- the opcodes with one reserved field; left are 0x0, CFG_MODULE with its two, 0xE and 0xF
  any_goals exact exists_ite_eq_error
  · exact iff_of_true ⟨_, rfl⟩ trivial
  · exact exists_ite_eq_error.trans not_and_or
  · exact iff_of_true ⟨_, rfl⟩ trivial
  · exact iff_of_true ⟨_, rfl⟩ trivial

/-- Settles O56, from the statuses a command can end with. -/
theorem statusIsOneOfSix : Obligations.StatusIsOneOfSix := by
  intro i s t hc h
  rcases exec_status hc h with h | ⟨h, hi⟩ | h | ⟨h, hi⟩ | h <;> rw [h]
  · simp
  · simp [hi]
  · simp
  · simp [hi]
  · simp

/-- Settles O59: what assembles passed the check of the widths and comes from a mnemonic's own command or from an
expansion; a mnemonic reads its bit operands by their widths; the text of a line reads back. -/
theorem assembledLinesDecode : Obligations.AssembledLinesDecode := by
  intro N
  refine ⟨fun line is h i hi => ?_, ?_, ?_, fun mnemonic comment ops h0 hm text ht => ?_⟩
  · obtain ⟨hw, hc⟩ := wellFormed_command_of_mem_assembleLine h hi
    exact ⟨hw, hc, decodeOfEncode i hw⟩
  · refine ⟨fun n => ?_, fun m p o => ?_, rfl, fun p a v => ?_, fun p a v => ?_, rfl, fun v => ?_, fun b => ?_,
      fun m r c on => ?_, fun m r c => ?_, rfl, rfl, fun m r c => ?_⟩
    · exact assembleOperation_single (p := True) rfl (by simp [Instr.wellFormed, fits_eight])
    · refine assembleOperation_single (operandBits_bind 4 o fun o => some [.cfgModule m p o]) ?_
      simp only [Instr.wellFormed, Bool.and_eq_true, fits_eight]
      omega
    · refine assembleOperation_single (operandBits_bind_bind 4 a 8 v fun a v => some [.sendOne p a v]) ?_
      simp only [Instr.wellFormed, fits_eight]
      omega
    · refine assembleOperation_single (operandBits_bind_bind 4 a 8 v fun a v => some [.batchPut p a v]) ?_
      simp only [Instr.wellFormed, fits_eight]
      omega
    · exact assembleOperation_single (p := True) rfl (by simp [Instr.wellFormed, fits_eight])
    · exact assembleOperation_single (operandBool_bind b fun b => some [.setTestMode b]) (by simp [Instr.wellFormed])
    · refine assembleOperation_single (operandBool_bind on fun on => some [.setPixel m r c on]) ?_
      simp only [Instr.wellFormed, Bool.and_eq_true, fits_eight]
      omega
    · exact assembleOperation_single (p := True) rfl (by simp [Instr.wellFormed, fits_eight, and_assoc])
    · exact assembleOperation_single (p := True) rfl (by simp [Instr.wellFormed, fits_eight, and_assoc])
  · refine ⟨fun n => rfl, fun p r v => ?_, rfl, fun p x => rfl, fun n a v => ?_, fun m r c => rfl⟩
    · exact assembleOperation_pseudo (operandBits_bind 8 v fun v => expand N (.writeRow p r v))
    · exact assembleOperation_pseudo (operandBits_bind_bind 4 a 8 v fun a v => expand N (.broadcast n a v))
  · exact ⟨assembleLine_operandText N h0 hm comment ops _ (.inl ht),
      assembleLine_operandText N h0 hm comment ops _ (.inr (by rw [ht]))⟩

/-- Settles O9: each legal word is what its instruction encodes to. -/
theorem encodedExamples : Obligations.EncodedExamples := by
  have legal {i : Instr} {w : Word} (hi : i.wellFormed = true) (h : encode i = .command w) :
      decodeCommand w = .ok i ∧ encode i = .command w := by
    have hd : decode (.command w) = .ok i := h ▸ decodeOfEncode i hi
    exact ⟨hd, h⟩
  obtain ⟨h1, e1⟩ := legal (i := .sendOne 1 0xA 0x05) rfl rfl
  obtain ⟨h2, e2⟩ := legal (i := .setPixel 2 3 7 true) rfl rfl
  obtain ⟨h3, e3⟩ := legal (i := .map 0 0 7) rfl rfl
  obtain ⟨h4, e4⟩ := legal (i := .cfgModule 0 2 0x5) rfl rfl
  exact ⟨h1, e1, h2, e2, h3, e3, h4, e4, rfl, rfl⟩

/-- Settles O10: the decoder reads the address nibble and the value byte. -/
theorem groupDecoding : Obligations.GroupDecoding := by
  intro x a v
  rw [decodeGroup_append, decodeGroup_append]
  exact ⟨rfl, encode_groupInstr a v⟩

/-- Settles O14: the placed word is the next input of its kind, at the module that `groupPos` names. -/
theorem placedWordRunsNext : Obligations.PlacedWordRunsNext := by
  intro s nbits w i h
  obtain ⟨c, hc, hd⟩ := decodeTableWord_eq_some h
  rw [withFetchWord_of_codeOfTable hc]
  rcases codeOfTable_cases hc with ⟨rfl, rfl⟩ | ⟨rfl, rfl⟩
  · exact step_offer_command hd s
  · cases hd
    exact step_offer_group _ s

/-- Settles O60, each expansion by its condition. -/
theorem pseudoInstructionsExpand : Obligations.PseudoInstructionsExpand := by
  intro N
  refine ⟨fun n => ⟨fun h => ?_, fun h => ?_⟩, fun p r v => ⟨fun h => ?_, fun h => ?_⟩, rfl,
    fun p => ⟨rfl, rfl, fun s h => ?_⟩, fun n a v => ⟨fun h => ?_, fun h => ?_⟩, fun m r c => rfl⟩
  · exact if_pos h
  · exact if_neg h
  · exact if_pos h
  · exact if_neg (Nat.not_lt.mpr h)
  · exact if_neg (Nat.not_le.mpr h)
  · exact if_pos h
  · exact if_neg h

end Sys2Proof.Machine
end

section
/-! The frames and the partition of 40_protocol R102, R109, R120: a group's bytes, and where a partition cuts. -/

namespace Sys2Proof.Machine

variable {n p : Nat} {S : SlotMap}

/-! ### The frames -/

/-- `zext_8` of an address nibble has upper nibble 0 (30_encoding R87). -/
theorem setWidth_eight_eq_append (a : BitVec 4) : a.setWidth 8 = 0#4 ++ a := by
  revert a; decide

/-- The address byte of position `p`'s group. -/
theorem buildFrame_getElem?_addr (S : SlotMap) (hp : p < n) :
    (buildFrame n S)[2 * (n - 1 - p)]? = some (0#4 ++ ((S.at p).getD noopGroup).addr) := by
  rw [← setWidth_eight_eq_append]
  exact buildFrame_getElem? n S hp (j := 0) (by decide)

/-- The value byte of position `p`'s group. -/
theorem buildFrame_getElem?_value (S : SlotMap) (hp : p < n) :
    (buildFrame n S)[2 * (n - 1 - p) + 1]? = some ((S.at p).getD noopGroup).value :=
  buildFrame_getElem? n S hp (j := 1) (by decide)

/-- Every even byte of a frame is the address byte of a group, with bits 7..4 zero (40_protocol R109). -/
theorem exists_buildFrame_addr (S : SlotMap) {k : Nat} (hk : k < n) :
    ∃ a : BitVec 4, (buildFrame n S)[2 * k]? = some (0#4 ++ a) := by
  have h := buildFrame_getElem?_addr S (show n - 1 - k < n by omega)
  rw [show n - 1 - (n - 1 - k) = k by omega] at h
  exact ⟨_, h⟩

/-! ### The partition -/

/-- The slot map has a group for position `p` exactly when one of its entries names `p`. -/
theorem SlotMap.isSome_at : (S.at p).isSome = true ↔ p ∈ S.map Prod.fst := by
  rw [← not_iff_not, Option.not_isSome_iff_eq_none, SlotMap.at, List.lookup_eq_none_iff, List.mem_map]
  constructor
  · rintro h ⟨x, hx, rfl⟩
    simpa using h x hx
  · intro h x hx
    exact bne_iff_ne.mpr fun e => h ⟨x, hx, e.symm⟩

/-- `S'` begins with a command to a module that `S` already holds. -/
def BeginsWithHeld (S S' : SlotMap) : Prop := ∃ x ∈ S'.head?, x.1 ∈ S.map Prod.fst

/-- The slot map that a partition has begun becomes its first one. -/
theorem exists_partitionFrom_eq_cons (L : List RegisterCommand) (hS : S ≠ []) :
    ∃ T rest, partitionFrom S L = (S ++ T) :: rest := by
  induction L generalizing S with
  | nil => exact ⟨[], [], by simp [partitionFrom, hS]⟩
  | cons c L ih =>
    simp only [partitionFrom]
    split
    · exact ⟨[], _, by rw [List.append_nil]⟩
    · obtain ⟨T, rest, e⟩ := ih (S := S ++ [c.slot]) (by simp)
      exact ⟨c.slot :: T, rest, by rw [e, List.append_assoc, List.singleton_append]⟩

/-- A partition begins a new slot map only for a command to a module that the last one holds (40_protocol R120,
property 3). -/
theorem partitionFrom_isChain (S : SlotMap) (L : List RegisterCommand) :
    (partitionFrom S L).IsChain BeginsWithHeld := by
  induction L generalizing S with
  | nil => simp only [partitionFrom]; split <;> simp
  | cons c L ih =>
    simp only [partitionFrom]
    split
    case isFalse => exact ih _
    case isTrue h =>
      have hL := ih [c.slot]
      obtain ⟨T, rest, e⟩ := exists_partitionFrom_eq_cons (S := [c.slot]) L (by simp)
      rw [e] at hL ⊢
      exact .cons_cons ⟨c.slot, rfl, SlotMap.isSome_at.mp h⟩ hL

/-- Two slot maps that follow each other in a partition. -/
theorem partition_greedy {L : List RegisterCommand} {k : Nat} {S S' : SlotMap} (h : (partition L)[k]? = some S)
    (h' : (partition L)[k + 1]? = some S') : BeginsWithHeld S S' := by
  obtain ⟨_, rfl⟩ := List.getElem?_eq_some_iff.mp h
  obtain ⟨hk, rfl⟩ := List.getElem?_eq_some_iff.mp h'
  exact List.isChain_iff_getElem.mp (partitionFrom_isChain [] L) k hk

theorem partition_ne_nil (L : List RegisterCommand) : ∀ S ∈ partition L, S ≠ [] := by
  cases L with
  | nil => simp [partition, partitionFrom]
  | cons c L => exact partitionFrom_ne_nil L (S := [c.slot]) (by simp)

/-- Every slot map holds a command, so there are no more of them than commands (40_protocol R120, property 5). -/
theorem partition_length_le (L : List RegisterCommand) : (partition L).length ≤ L.length := by
  have hpos : ∀ x ∈ (partition L).map List.length, 1 ≤ x := by
    intro x hx
    obtain ⟨S, hS, rfl⟩ := List.mem_map.mp hx
    exact List.length_pos_iff.mpr (partition_ne_nil L S hS)
  calc (partition L).length = ((partition L).map List.length).length := (List.length_map _).symm
    _ ≤ ((partition L).map List.length).sum := List.length_le_sum_of_one_le _ hpos
    _ = (partition L).flatten.length := List.length_flatten.symm
    _ = L.length := by rw [partition_flatten, List.length_map]

/-- Commands to distinct modules make one slot map (40_protocol R120, property 4): a second one would begin with a command
to a module of the first. -/
theorem partition_length_of_nodup {L : List RegisterCommand} (h0 : L ≠ []) (hL : (L.map RegisterCommand.p).Nodup) :
    (partition L).length = 1 := by
  have hflat := partition_flatten L
  have hchain : (partition L).IsChain BeginsWithHeld := partitionFrom_isChain [] L
  have hkeys : ((L.map RegisterCommand.slot).map Prod.fst).Nodup := by
    rw [List.map_map, show Prod.fst ∘ RegisterCommand.slot = BitVec.toNat ∘ RegisterCommand.p from rfl, ← List.map_map]
    exact hL.map fun _ _ => BitVec.eq_of_toNat_eq
  match hP : partition L with
  | [] =>
    rw [hP] at hflat
    exact absurd (List.map_eq_nil_iff.mp hflat.symm) h0
  | [S] => rfl
  | S :: S' :: rest =>
    rw [hP] at hflat hchain
    obtain ⟨x, hx, hxS⟩ := (List.isChain_cons_cons.mp hchain).1
    rw [← hflat, List.flatten_cons, List.map_append] at hkeys
    have hx' : x.1 ∈ (S' :: rest).flatten.map Prod.fst :=
      List.mem_map_of_mem (List.mem_flatten.mpr ⟨S', List.mem_cons_self, List.mem_of_mem_head? hx⟩)
    exact absurd hx' (List.disjoint_of_nodup_append hkeys hxS)

end Sys2Proof.Machine
end

section
/-! The transmit loop and what a command sends (40_protocol R107, R109, R121). -/

namespace Sys2Proof.Machine

variable {s t : State} {i : Instr}

/-- A list of transactions, all answered `Ok`, and the data a command ends with. -/
theorem endSend_sendTxns_ok {n : Nat} {T : List SlotMap} (h : okFor T.length s) :
    ∃ t, endSend (countData (sendTxns n T s).count) (sendTxns n T s) = .next t ∧ onlySent s t ∧
      t.result = resultWord .ok (countData T.length) ∧
      t.busLog = s.busLog ++ okTransactions (T.map (buildFrame n)) ∧ t.chain = latchAll n T s.draws s.chain := by
  rw [sendTxns_ok n T s h]
  exact ⟨_, rfl, rfl, rfl, rfl, rfl⟩

/-- A list of transactions that stops at transaction `k`. -/
theorem endSend_sendTxns_err {n : Nat} {T : List SlotMap} {k : Nat} (data : BitVec 28) (hk : k < T.length)
    (h : failsAt k s) :
    ∃ t, endSend data (sendTxns n T s) = .next t ∧ onlySent s t ∧
      t.result = resultWord .transportError (countData k) ∧
      t.busLog = s.busLog ++ okTransactions ((T.take k).map (buildFrame n)) ++ [⟨buildFrame n T[k], .err⟩] := by
  rw [sendTxns_err n T s k hk h]
  exact ⟨_, rfl, rfl, rfl, rfl⟩

/-- `t` is outside the block what `Transmit` of the frames of `new` leaves from `s`, and each of them is a frame of `t`'s
chain length. -/
structure Sends (s t : State) (new : List Transaction) : Prop where
  busLog : t.busLog = s.busLog ++ new
  outside : SameOutside t (replay s new)
  frames : ∀ x ∈ new, ∃ S, x.frame = buildFrame t.count S

/-- The transmit loop of a sending command sends frames of the committed chain length. -/
theorem exists_sends_sendLoop (i : Instr) (s : State) (w : Word) :
    ∃ new, Sends s { (sendLoop i s).state with result := w } new := by
  obtain ⟨new, hlog, hreplay, hframes⟩ := sendTxns_replay (sendBase i s).count (sendMaps i s) (sendBase i s)
  have hbase := sendBase_sameOutside i s
  have hN : (sendLoop i s).state.count = (sendBase i s).count := by rw [sendLoop_onlySent i s]; rfl
  refine ⟨new, ?_, ?_, fun x hx => ?_⟩
  · rw [← hbase.1]
    exact hlog
  · have h := hbase.replay new
    rw [← hreplay] at h
    exact h
  · obtain ⟨S, -, hS⟩ := hframes x hx
    exact ⟨S, by rw [hS, ← hN]; rfl⟩

theorem sends_nil (h : SameOutside t s) : Sends s t [] :=
  ⟨by rw [List.append_nil, h.1], h, fun _ hx => absurd hx List.not_mem_nil⟩

/-- What a command leaves outside the block is the replay of the frames it sent (20_memory R61, R63). -/
theorem exec_sends (hc : i.isCommand = true) (h : exec i s = .next t) : ∃ new, Sends s t new := by
  cases exec_command_ends hc h
  case failed st hst h => exact ⟨[], sends_nil (onlyResult_sameOutside (h ▸ rfl))⟩
  case quiet hi hp d h' => exact ⟨[], sends_nil (exec_quiet_sameOutside hc hi h)⟩
  case sent hi hp ha h => exact h ▸ exists_sends_sendLoop i s _
  case stopped hi hp k hk ha h => exact h ▸ exists_sends_sendLoop i s _

end Sys2Proof.Machine
end

section
/-! The registers of a module after it takes a group, after a `Transmit` and after a group run alone (40_protocol R104,
R105; log 3, log 5, log 6). -/

namespace Sys2Proof.Machine

variable {s : State} {a : BitVec 4}

theorem unnamedReg_eq_true : unnamedReg a = true ↔ a = 0xD ∨ a = 0xE := by
  simp [unnamedReg]

theorem ne_noop_of_unnamedReg (h : unnamedReg a = true) : a ≠ 0x0 := by
  rintro rfl; simp [unnamedReg] at h

theorem unnamedReg_eq_false : unnamedReg a = false ↔ a ≠ 0xD ∧ a ≠ 0xE := by
  simp [unnamedReg]

/-- Each register of a module that takes the address nibble `a` and the value `v` (40_protocol R105). -/
theorem regAt_writeReg_cases (d p : Nat) (a : BitVec 4) (v : Byte) (regs : ModuleRegs) (b : BitVec 4) :
    regAt (writeReg d p a v regs) b =
      if a = 0x0 then regAt regs b
      else if a = 0xD ∨ a = 0xE then Config.chainUnknown d p b.toNat
      else if b = a then v
      else regAt regs b := by
  split
  case isTrue h => rw [h, writeReg_noop]
  case isFalse h0 =>
    split
    case isTrue h => rw [writeReg_unnamed (unnamedReg_eq_true.mpr h), regAt_unknownRegs]
    case isFalse h => rw [writeReg_named h0 (unnamedReg_eq_false.mpr (not_or.mp h)), regAt_setReg]

/-! ### After a `Transmit` -/

/-- A frame of `2·n` bytes answered `Ok`: each module takes its group. -/
theorem reg_transmit_ok {f : List Byte} {n p : Nat} {A V : Byte} (ha : s.answerAt 0 = .ok) (hf : f.length = 2 * n)
    (hp : p < n) (hp256 : p < 256) (hA : f[2 * (n - 1 - p)]? = some A) (hV : f[2 * (n - 1 - p) + 1]? = some V)
    (b : BitVec 4) :
    (transmit f s).reg p b = regAt (writeReg s.draws p (A.extractLsb' 0 4) V (chainAt s.chain p)) b := by
  rw [← nextAnswer_eq_answerAt] at ha
  have hn : f.length / 2 = n := by omega
  rw [State.reg, transmit_chain_ok ha, chainAt_latchFrame _ _ _ hp256 (hn.symm ▸ hp), hn, groupOffset, takeGroup,
    List.getD_eq_getElem?_getD, List.getD_eq_getElem?_getD, hA, hV, Option.getD_some, Option.getD_some]

/-- A frame answered `Err`: every register is unknown. -/
theorem reg_transmit_err (ha : s.answerAt 0 = .err) (f : List Byte) {p : Nat} (hp : p < 256) (b : BitVec 4) :
    (transmit f s).reg p b = Config.chainUnknown s.draws p b.toNat := by
  rw [← nextAnswer_eq_answerAt] at ha
  rw [State.reg, transmit_chain_err ha, chainAt_unknownChain _ hp, regAt_unknownRegs]

/-- A frame the block built, answered `Ok`: each module takes the group of its slot. -/
theorem reg_transmit_buildFrame (ha : s.answerAt 0 = .ok) (S : SlotMap) {p : Nat} (hp : p < s.count) (b : BitVec 4) :
    (transmit (buildFrame s.count S) s).reg p b =
      regAt (writeReg s.draws p ((S.at p).getD noopGroup).addr ((S.at p).getD noopGroup).value (chainAt s.chain p)) b := by
  rw [← nextAnswer_eq_answerAt] at ha
  rw [State.reg, transmit_chain_ok ha, chainAt_latch_buildFrame _ _ _ (Nat.lt_trans hp s.N.isLt) hp]

/-- A module with no slot keeps its registers (40_protocol R108). -/
theorem reg_transmit_of_at_none (ha : s.answerAt 0 = .ok) {S : SlotMap} {p : Nat} (hp : p < s.count)
    (hS : S.at p = none) (b : BitVec 4) : (transmit (buildFrame s.count S) s).reg p b = s.reg p b := by
  rw [reg_transmit_buildFrame ha S hp, hS]
  exact congrArg (regAt · b) (writeReg_noop _ _ _ _)

/-- A module whose slot names a register, or the No-Op, takes its value there. -/
theorem reg_transmit_of_at_named (ha : s.answerAt 0 = .ok) {S : SlotMap} {p : Nat} {v : Byte} (hp : p < s.count)
    (hS : S.at p = some ⟨a, v⟩) (hn : unnamedReg a = false) (b : BitVec 4) :
    (transmit (buildFrame s.count S) s).reg p b = if a = b ∧ b ≠ 0x0 then v else s.reg p b := by
  rw [reg_transmit_buildFrame ha S hp, hS]
  exact regAt_writeReg hn _ _ _ _ _

/-- A single frame answered `Ok`: the command ends with 1. -/
theorem sendSingle_ok (ha : s.answerAt 0 = .ok) (f : List Byte) : sendSingle f s = finish 1 (transmit f s) := by
  rw [← nextAnswer_eq_answerAt] at ha
  simp only [sendSingle, ha]

/-- One frame that gives every module the value `v` for the named register `a`, answered `Ok` (40_protocol R125, R130). -/
theorem sendSingle_frameAll_latches (ha : s.answerAt 0 = .ok) (h0 : a ≠ 0x0) (hn : unnamedReg a = false) (v : Byte) :
    ∃ t, sendSingle (frameAll s.count a v) s = .next t ∧
      ∀ p b, p < s.count → t.reg p b = if b = a then v else s.reg p b := by
  refine ⟨_, sendSingle_ok ha _, fun p b hp => ?_⟩
  have hS : (allSlots s.count ⟨a, v⟩).at p = some ⟨a, v⟩ := by rw [allSlots_at, if_pos hp]
  refine (reg_transmit_of_at_named ha hp hS hn b).trans (if_congr ?_ rfl rfl)
  exact ⟨fun h => h.1.symm, fun h => ⟨h.symm, h ▸ h0⟩⟩

/-! ### After a group run alone -/

/-- A group that is no No-Op writes the module at `groupPos` and passes one draw. -/
theorem moduleTakes_eq (h0 : a ≠ 0x0) (v : Byte) (s : State) :
    moduleTakes a v s = { s with
      chain := s.chain.set s.groupPos.val
        (writeReg s.draws s.groupPos.val a v (chainAt s.chain s.groupPos.val)) s.groupPos.isLt
      draws := s.draws + 1 } := if_neg h0

theorem moduleTakes_reg (h0 : a ≠ 0x0) (v : Byte) (s : State) (q : Nat) (b : BitVec 4) :
    (moduleTakes a v s).reg q b = if q = s.groupPos.val then
      regAt (writeReg s.draws s.groupPos.val a v (chainAt s.chain s.groupPos.val)) b else s.reg q b := by
  rw [moduleTakes_eq h0, reg_set]

/-- A group for a named register sets that register of that module, and no other. -/
theorem moduleTakes_reg_named (h0 : a ≠ 0x0) (hn : unnamedReg a = false) (v : Byte) (s : State) (q : Nat) (b : BitVec 4) :
    (moduleTakes a v s).reg q b = if q = s.groupPos.val ∧ b = a then v else s.reg q b := by
  rw [moduleTakes_reg h0, writeReg_named h0 hn, regAt_setReg, ite_and]
  split
  case isTrue h => rw [h]; rfl
  case isFalse => rfl

/-- A group for 0xD or 0xE leaves every register of that module unknown, and changes no other. -/
theorem moduleTakes_reg_unnamed (hn : unnamedReg a = true) (v : Byte) (s : State) (q : Nat) (b : BitVec 4) :
    (moduleTakes a v s).reg q b =
      if q = s.groupPos.val then Config.chainUnknown s.draws s.groupPos.val b.toNat else s.reg q b := by
  rw [moduleTakes_reg (ne_noop_of_unnamedReg hn), writeReg_unnamed hn, regAt_unknownRegs]

/-- The instruction of a group is run by the module at `groupPos`, with the group's address nibble and value. -/
theorem exec_groupInstr (a : BitVec 4) (v : Byte) (s : State) : exec (groupInstr a v) s = .next (moduleTakes a v s) := by
  rcases four_bits a with
    rfl | rfl | rfl | rfl | rfl | rfl | rfl | rfl | rfl | rfl | rfl | rfl | rfl | rfl | rfl | rfl <;> rfl

/-- The addresses of the thirteen named registers (30_encoding R87). -/
def namedRegs : List (BitVec 4) := [0x1, 0x2, 0x3, 0x4, 0x5, 0x6, 0x7, 0x8, 0x9, 0xA, 0xB, 0xC, 0xF]

theorem named_of_mem_namedRegs : ∀ a ∈ namedRegs, a ≠ 0x0 ∧ unnamedReg a = false := by decide

end Sys2Proof.Machine
end

section
/-! The statements of 40_protocol, from the lemmas above. -/

namespace Sys2Proof.Machine

/-- Settles O21: the two bytes of a position are its slot's group, or the no-op group. -/
theorem framePlacesGroups : Obligations.FramePlacesGroups := by
  intro n S
  refine ⟨buildFrame_length n S, fun p hp => ?_⟩
  have hA := buildFrame_getElem?_addr S hp
  have hV := buildFrame_getElem?_value S hp
  cases hS : S.at p <;> rw [hS] at hA hV <;> exact ⟨hA, hV⟩

/-- Settles O22, by what the transmit loop leaves when all is `Ok` and when transaction `k` is the first `Err`. -/
theorem sendTxnsStopsAtFirstError : Obligations.SendTxnsStopsAtFirstError := by
  intro n T s
  refine ⟨fun h => ?_, fun k S hS h => ?_⟩
  · rw [sendTxns_ok n T s h]
    exact ⟨rfl, rfl, rfl⟩
  · obtain ⟨hk, rfl⟩ := List.getElem?_eq_some_iff.mp hS
    rw [sendTxns_err n T s k hk h]
    exact ⟨rfl, rfl, rfl⟩

/-- Settles O23: the checks in order, then one frame. -/
theorem sendOneEffect : Obligations.SendOneEffect := by
  intro p a v s
  refine ⟨exec_unconfigured rfl, fun hm hp => ?_, fun hm hp => ?_, rfl⟩
  · exact (configuredOnly_configured hm _).trans (checkPosition_of_le hp _)
  · rw [← frameOne_eq, exec, execSendOne, configuredOnly_configured hm, checkPosition_of_lt hp]
    exact sendSingle_next _ s

/-- Settles O24: the checks in order, then the new entry. The new length is a count of a result word. -/
theorem batchPutEffect : Obligations.BatchPutEffect := by
  intro p a v s
  refine ⟨exec_unconfigured rfl, fun hm hc => ?_, fun hm hp hb => ?_, rfl⟩
  · rw [exec, execBatchPut, configuredOnly_configured hm]
    by_cases hp : s.count ≤ p
    · exact checkPosition_of_le hp _
    · rw [checkPosition_of_lt (Nat.lt_of_not_le hp)]
      exact if_pos (hc.resolve_left hp)
  · have hfull : s.batch.length ≠ Config.batchMax := Nat.ne_of_lt hb
    rw [exec, execBatchPut, configuredOnly_configured hm, checkPosition_of_lt hp, if_neg hfull, finish_eq,
      resultWord_ok_count (by omega)]

/-- Settles O25: the slot maps hold the batch in order, and a new one begins only where the last one holds the module. -/
theorem partitionIsGreedyAndInOrder : Obligations.PartitionIsGreedyAndInOrder := fun L =>
  ⟨partition_flatten L, fun S hS => ⟨partition_nodup L S hS, partition_ne_nil L S hS⟩, fun _ _ _ => partition_greedy, rfl,
    partition_length_of_nodup, partition_length_le L⟩

/-- Settles O26: the batch is emptied before the first transaction, so it is empty however the loop ends. -/
theorem batchSendEffect : Obligations.BatchSendEffect := by
  intro s
  refine ⟨exec_unconfigured rfl, fun hm h => ?_, fun k S hm hS h => ?_, rfl⟩
  · obtain ⟨t, ht, hs, hr, hlog, -⟩ := endSend_sendTxns_ok (s := { s with batch := [] }) (n := s.count) h
    exact ⟨t, (configuredOnly_configured hm _).trans ht, hs, hr, hlog⟩
  · obtain ⟨hk, rfl⟩ := List.getElem?_eq_some_iff.mp hS
    obtain ⟨t, ht, hs, hr, hlog⟩ := endSend_sendTxns_err (s := { s with batch := [] }) (n := s.count) _ hk h
    exact ⟨t, (configuredOnly_configured hm _).trans ht, hs, hr, hlog⟩

/-- Settles O27: the checks in order, then one frame for every module. -/
theorem setIntensityEffect : Obligations.SetIntensityEffect := by
  intro v s
  refine ⟨exec_unconfigured rfl, fun hm hv => ?_, fun hm hv => ?_, rfl⟩
  · exact (configuredOnly_configured hm _).trans (if_pos hv)
  · rw [← frameAll_eq, exec, execSetIntensity, configuredOnly_configured hm, if_neg (Nat.not_lt.mpr hv)]
    exact sendSingle_next _ s

/-- The value byte of SET_TEST_MODE (40_protocol R130). -/
theorem setWidth_ofBool (b : Bool) : (BitVec.ofBool b).setWidth 8 = if b then (0x01 : Byte) else 0x00 := by
  cases b <;> rfl

/-- Settles O28: the check of MODE, then one frame for every module. -/
theorem setTestModeEffect : Obligations.SetTestModeEffect := by
  intro b s
  refine ⟨exec_unconfigured rfl, fun hm => ?_, rfl⟩
  rw [← frameAll_eq, ← setWidth_ofBool, exec, execSetTestMode, configuredOnly_configured hm]
  exact sendSingle_next _ s

/-- Settles O29: a command sends frames that `buildFrame` made, and a group sends nothing. -/
theorem everySentFrameIsWellShaped : Obligations.EverySentFrameIsWellShaped := by
  intro i s t h
  cases hc : i.isCommand
  case false =>
    obtain ⟨a, v, e⟩ := exec_group_eq hc
    rw [e, Host.Outcome.next.injEq] at h
    exact ⟨[], by rw [← h, moduleTakes_busLog, List.append_nil], by simp, by simp⟩
  case true =>
    obtain ⟨new, hlog, hout, hframes⟩ := exec_sends hc h
    refine ⟨new, hlog, fun x hx => ?_, fun _ => hout⟩
    obtain ⟨S, hS⟩ := hframes x hx
    rw [hS]
    exact ⟨buildFrame_length _ S, fun k hk => exists_buildFrame_addr S hk⟩

/-- Settles O30, by the group of each module and the cases of its address nibble. -/
theorem transmitLatchesChain : Obligations.TransmitLatchesChain := by
  intro s f
  obtain ⟨hlog, hans, hdraws, hs⟩ := transmit_frame f s
  refine ⟨⟨hlog, hans, hdraws, transmit_result f s, hs⟩, fun n p A V b hf hp hn hA hV => ?_⟩
  have hp256 : p < 256 := by omega
  refine ⟨fun ha => ?_, fun ha => reg_transmit_err ha f hp256 b⟩
  rw [reg_transmit_ok ha hf hp hp256 hA hV, regAt_writeReg_cases]
  rfl

/-- Settles O31: one frame gives every module its group, and the transactions of a batch leave the last value of each
register. -/
theorem chainWideCommandsLatchRegisters : Obligations.ChainWideCommandsLatchRegisters := by
  intro s hm
  refine ⟨fun v hv ha => ?_, fun b ha => ?_, fun h => ?_⟩
  · rw [exec, execSetIntensity, configuredOnly_configured hm, if_neg (Nat.not_lt.mpr hv)]
    exact sendSingle_frameAll_latches ha (by decide) rfl _
  · rw [exec, execSetTestMode, configuredOnly_configured hm, setWidth_ofBool]
    exact sendSingle_frameAll_latches ha (by decide) rfl _
  · obtain ⟨t, ht, -, -, -, hchain⟩ := endSend_sendTxns_ok (s := { s with batch := [] }) (n := s.count) h
    refine ⟨t, (configuredOnly_configured hm _).trans ht, fun p hp hn a => ?_⟩
    rw [State.reg, hchain]
    exact regAt_latchAll_partition s.batch s.draws s.chain a (Nat.lt_trans hp s.N.isLt) hp fun e he hep =>
      unnamedReg_eq_false.mpr (hn e he hep)

/-- Settles O32: only the target has a slot in the frame. -/
theorem sendOneDisturbsNoOtherModule : Obligations.SendOneDisturbsNoOtherModule := by
  intro p a v s hm hp ha
  have hexec : exec (.sendOne p a v) s = finish 1 (transmit (frameOne s.count p a v) s) := by
    rw [exec, execSendOne, configuredOnly_configured hm, checkPosition_of_lt hp, sendSingle_ok ha]
  refine ⟨_, hexec, fun q b hq hqp => ?_, fun hD hE b => ?_⟩
  · exact reg_transmit_of_at_none ha hq (by rw [oneSlot_at, if_neg hqp]) b
  · have hS : (oneSlot p ⟨a, v⟩).at p = some ⟨a, v⟩ := by rw [oneSlot_at, if_pos rfl]
    refine (reg_transmit_of_at_named ha hp hS (unnamedReg_eq_false.mpr ⟨hD, hE⟩) b).trans (if_congr ?_ rfl rfl)
    exact ⟨fun h => ⟨h.1.symm, h.1 ▸ h.2⟩, fun h => ⟨h.1.symm, h.1 ▸ h.2⟩⟩

/-- Settles O33: each is the group of a named register, which the module at `groupPos` takes. -/
theorem namedGroupsSetTheirRegister : Obligations.NamedGroupsSetTheirRegister := by
  intro v s
  show ∀ x ∈ namedRegs.map fun a => (groupInstr a v, a), _
  rw [List.forall_mem_map]
  intro a ha
  obtain ⟨h0, hn⟩ := named_of_mem_namedRegs a ha
  have hreg := moduleTakes_reg_named h0 hn v s
  refine ⟨_, exec_groupInstr a v s, encode_groupInstr a v, ?_, fun q b hqb => ?_, ?_⟩
  · exact (hreg _ a).trans (if_pos ⟨rfl, rfl⟩)
  · exact (hreg q b).trans (if_neg fun h => hqb.elim (· h.1) (· h.2))
  · rw [moduleTakes_eq h0]

/-- Settles O34: the No-Op changes nothing, and a group for 0xD or 0xE makes the registers of its module unknown. -/
theorem noOpAndUnnamedGroups : Obligations.NoOpAndUnnamedGroups := by
  intro v s
  refine ⟨rfl, ?_⟩
  show ∀ i ∈ [0xD, 0xE].map fun a => groupInstr a v, _
  rw [List.forall_mem_map]
  intro a ha
  have hn : unnamedReg a = true := unnamedReg_eq_true.mpr (by simpa using ha)
  have hreg := moduleTakes_reg_unnamed hn v s
  refine ⟨_, exec_groupInstr a v s, fun b => (hreg _ b).trans (if_pos rfl), fun q b hq => (hreg q b).trans (if_neg hq), ?_⟩
  rw [moduleTakes_eq (ne_noop_of_unnamedReg hn)]

end Sys2Proof.Machine
end

section
/-! The staging registers and what INIT commits (41_config_init R142, R145, R146). -/

namespace Sys2Proof.Machine

variable {s t : State}

/-! ### The staging registers -/

theorem getD_setIfInBounds {α : Type} {n m : Nat} (v : Vector α n) (hm : m < n) (x d : α) (k : Nat) :
    ((v.setIfInBounds m x)[k]?).getD d = if k = m then x else (v[k]?).getD d := by
  rw [Vector.getElem?_setIfInBounds, if_pos hm]
  by_cases h : k = m
  · rw [if_pos h, if_pos h.symm, Option.getD_some]
  · rw [if_neg h, if_neg (Ne.symm h)]

/-- CFG_MODULE writes the entry of `m` in `STG_ORDER` and no other (41_config_init R142). -/
theorem stgOrderAt_cfgModule {m : Nat} (hm : m < 256) (p : Nat) (o : BitVec 4) (s : State) (k : Nat) :
    (quietEffect (.cfgModule m p o) s).stgOrderAt k = if k = m then BitVec.ofNat 8 p else s.stgOrderAt k :=
  getD_setIfInBounds _ hm _ _ k

/-- CFG_MODULE writes the entry of `m` in `STG_ORIENT` and no other (41_config_init R142). -/
theorem stgOrientAt_cfgModule {m : Nat} (hm : m < 256) (p : Nat) (o : BitVec 4) (s : State) (k : Nat) :
    (quietEffect (.cfgModule m p o) s).stgOrientAt k = if k = m then o else s.stgOrientAt k :=
  getD_setIfInBounds _ hm _ _ k

/-- A nonzero count with a permutation of `0..STG_N-1` as the staged order passes the three checks (41_config_init R145). -/
theorem validStaging_of_perm (h1 : 1 ≤ s.stgN.toNat) (hp : s.stagedOrder.Perm (List.range s.stgN.toNat)) :
    ValidStaging s := by
  have hlt : ∀ p ∈ s.stagedOrder, p < s.stgN.toNat := fun p h => List.mem_range.mp (hp.mem_iff.mp h)
  have hd : s.stagedOrder.Nodup := hp.nodup_iff.mpr List.nodup_range
  rw [← validConfig_iff, State.validConfig, Bool.and_eq_true, Bool.and_eq_true, bne_iff_ne, List.all_eq_true,
    decide_eq_true_eq]
  exact ⟨⟨by omega, fun p h => decide_eq_true (hlt p h)⟩, hd⟩

theorem one_le_stgN (hv : ValidStaging s) : 1 ≤ s.stgN.toNat :=
  Nat.one_le_iff_ne_zero.mpr fun h => hv.1 (BitVec.eq_of_toNat_eq h)

/-! ### The commits of INIT -/

/-- The commits stand however the sending after them ends (41_config_init R146). -/
theorem initCommitted_of_onlySent (h : onlySent (commitConfig s) t) : initCommitted s t := by
  rw [h]
  exact ⟨rfl, rfl, fun m hm => ⟨commitConfig_orderAt hm, commitConfig_orientAt hm⟩, fun _ => rfl, rfl, rfl⟩

/-- The number of transactions of INIT is a count of a result word. -/
theorem initTransactions_lt (s : State) : 13 * s.stgN.toNat < 2 ^ 28 := by
  have := s.stgN.isLt
  omega

/-- INIT of a valid staging, every transaction answered `Ok`. -/
theorem execInit_ok (hv : ValidStaging s) (h : okFor (13 * s.stgN.toNat) s) :
    ∃ t, exec .init s = .next t ∧ onlySent (commitConfig s) t ∧
      t.result = BitVec.ofNat 32 (13 * s.stgN.toNat) ∧
      t.busLog = s.busLog ++ okTransactions (initFrames s.stgN.toNat) ∧
      t.chain = latchAll s.stgN.toNat (initSeq s.stgN.toNat) s.draws s.chain := by
  rw [← initFrames_eq, exec, execInit_valid hv, ← resultWord_ok_count (initTransactions_lt s), ← initSeq_length]
  exact endSend_sendTxns_ok (s := commitConfig s) (by rw [initSeq_length]; exact h)

/-- INIT of a valid staging, transaction `k` the first answered `Err`. -/
theorem execInit_err {k : Nat} (hv : ValidStaging s) (hk : k < 13 * s.stgN.toNat) (h : failsAt k s) :
    ∃ t f, exec .init s = .next t ∧ onlySent (commitConfig s) t ∧ (initFrames s.stgN.toNat)[k]? = some f ∧
      t.result = 0x30000000 + BitVec.ofNat 32 k ∧
      t.busLog = s.busLog ++ okTransactions ((initFrames s.stgN.toNat).take k) ++ [⟨f, .err⟩] := by
  have hkT : k < (initSeq s.stgN.toNat).length := by rwa [initSeq_length]
  obtain ⟨t, ht, hs, hr, hlog⟩ := endSend_sendTxns_err (s := commitConfig s) (n := s.stgN.toNat)
    (countData (sendTxns s.stgN.toNat (initSeq s.stgN.toNat) (commitConfig s)).count) hkT h
  refine ⟨t, buildFrame s.stgN.toNat (initSeq s.stgN.toNat)[k], (execInit_valid hv).trans ht, hs, ?_, ?_, ?_⟩
  · rw [← initFrames_eq, List.getElem?_map, List.getElem?_eq_getElem hkT, Option.map_some]
  · rw [hr, resultWord_err_count (hk.trans (initTransactions_lt s))]
  · rw [hlog, ← initFrames_eq, List.map_take, commitConfig_busLog]

end Sys2Proof.Machine
end

section
/-! The registers of a module after the initialization sequence (41_config_init R147, R148; log 3). -/

namespace Sys2Proof.Machine

variable {p : Nat}

/-- A slot for a named register, or the No-Op, gives the module at its own position the value, and no other. -/
theorem regAt_takeSlot {x : Nat × Group} (hn : unnamedReg x.2.addr = false) (p : Nat) (regs : ModuleRegs)
    (b : BitVec 4) :
    regAt (takeSlot p regs x) b = if x.1 = p ∧ x.2.addr = b ∧ b ≠ 0x0 then x.2.value else regAt regs b := by
  rw [takeSlot, ite_and]
  split
  · exact regAt_writeReg hn _ _ _ _ _
  · rfl

/-- Slots that write no register twice leave each value they give in its register. -/
theorem regAt_foldl_takeSlot {X : List (Nat × Group)} (hX : (X.map fun x => (x.1, x.2.addr)).Nodup)
    (hn : ∀ x ∈ X, unnamedReg x.2.addr = false) {g : Group} (hg : (p, g) ∈ X) (h0 : g.addr ≠ 0x0) (regs : ModuleRegs) :
    regAt (X.foldl (takeSlot p) regs) g.addr = g.value := by
  induction X using List.reverseRecOn with
  | nil => exact absurd hg List.not_mem_nil
  | append_singleton X x ih =>
    rw [List.foldl_append, List.foldl_cons, List.foldl_nil, regAt_takeSlot (hn x (by simp))]
    rw [List.map_append, List.map_singleton, ← List.concat_eq_append, List.nodup_concat] at hX
    rcases List.mem_append.mp hg with hg | hg
    · have hx : ¬ (x.1 = p ∧ x.2.addr = g.addr ∧ g.addr ≠ 0x0) := by
        rintro ⟨hp, ha, -⟩
        exact hX.1 (List.mem_map.mpr ⟨(p, g), hg, by rw [hp, ha]⟩)
      rw [if_neg hx]
      exact ih hX.2 (fun y hy => hn y (List.mem_append_left _ hy)) hg
    · obtain rfl := List.mem_singleton.mp hg
      exact if_pos ⟨rfl, rfl, h0⟩

/-- The initialization sequence has one slot map for each position with each of the 13 groups. -/
theorem initSeq_eq (n : Nat) : initSeq n = (List.range n ×ˢ initGroups).map fun x => oneSlot x.1 x.2 := by
  simp only [initSeq, SProd.sprod, List.product, List.map_flatMap, List.map_map, Function.comp_def]

theorem flatten_initSeq (n : Nat) : (initSeq n).flatten = List.range n ×ˢ initGroups := by
  rw [initSeq_eq, ← List.flatMap_def]
  exact List.flatMap_singleton' _

/-- The initialization sequence writes no register twice. -/
theorem initSeq_registers_nodup (n : Nat) : ((initSeq n).flatten.map fun x => (x.1, x.2.addr)).Nodup := by
  have haddr : (initGroups.map Group.addr).Nodup := by decide
  rw [flatten_initSeq]
  refine (List.nodup_range.product (.of_map _ haddr)).map_on fun x hx y hy e => ?_
  obtain ⟨hp, ha⟩ := Prod.mk.inj e
  exact Prod.ext hp (List.inj_on_of_nodup_map haddr (List.mem_product.mp hx).2 (List.mem_product.mp hy).2 ha)

theorem initGroups_named : ∀ g ∈ initGroups, g.addr ≠ 0x0 ∧ unnamedReg g.addr = false := by
  simp [initGroups, unnamedReg]

/-- After the initialization sequence, all answered `Ok`, a module has the value of each of the 13 groups in its register,
whatever it held before (41_config_init R148). -/
theorem regAt_latchAll_initSeq {n d : Nat} (regs : Vector ModuleRegs 256) (h : p < 256) (hp : p < n) {g : Group}
    (hg : g ∈ initGroups) : regAt (chainAt (latchAll n (initSeq n) d regs) p) g.addr = g.value := by
  have hnamed : ∀ x ∈ (initSeq n).flatten, unnamedReg x.2.addr = false := by
    intro x hx
    rw [flatten_initSeq] at hx
    exact (initGroups_named x.2 (List.mem_product.mp hx).2).2
  have hmem : (p, g) ∈ (initSeq n).flatten := by
    rw [flatten_initSeq]
    exact List.mem_product.mpr ⟨List.mem_range.mpr hp, hg⟩
  rw [chainAt_latchAll _ _ _ h hp, foldl_txns_eq_foldl_slots]
  · exact regAt_foldl_takeSlot (initSeq_registers_nodup n) hnamed hmem (initGroups_named g hg).1 _
  · intro S hS
    rw [initSeq_eq] at hS
    obtain ⟨x, -, rfl⟩ := List.mem_map.mp hS
    exact List.nodup_singleton _
  · exact fun S hS x hx _ => hnamed x (List.mem_flatten.mpr ⟨S, hS, hx⟩)

/-- The initialization sequence darkens every row (41_config_init R147). -/
theorem rowRegister_mem_initGroups : ∀ pr : BitVec 3, (⟨rowRegister pr, 0x00⟩ : Group) ∈ initGroups := by decide

end Sys2Proof.Machine
end

section
/-! The statements of 41_config_init, from the lemmas above. -/

namespace Sys2Proof.Machine

/-- Settles O17: INIT's checks are `validConfig_iff`, and they hold exactly of a permutation. -/
theorem validConfigMeansPermutation : Obligations.ValidConfigMeansPermutation := fun s =>
  ⟨validConfig_iff s, fun hv => ⟨one_le_stgN hv, stagedOrder_perm hv⟩, fun h => validStaging_of_perm h.1 h.2⟩

/-- Settles O18, by INIT of an invalid staging, and of a valid one when all is `Ok` and when transaction `k` is the first
`Err`. -/
theorem initEffect : Obligations.InitEffect := by
  intro s
  refine ⟨execInit_invalid, fun hv h => ?_, fun k hv hk h => ?_, rfl⟩
  · obtain ⟨t, ht, hs, hr, hlog, -⟩ := execInit_ok hv h
    exact ⟨t, ht, initCommitted_of_onlySent hs, hr, hlog⟩
  · obtain ⟨t, f, ht, hs, hf⟩ := execInit_err hv hk h
    exact ⟨t, f, ht, initCommitted_of_onlySent hs, hf⟩

/-- Settles O19: each of the 13 groups leaves its value in its register, and the commits leave a dark Frame Buffer. -/
theorem initLeavesChainKnown : Obligations.InitLeavesChainKnown := by
  intro s hv h
  obtain ⟨t, ht, hs, -, -, hchain⟩ := execInit_ok hv h
  obtain ⟨-, -, -, hfb, -⟩ := initCommitted_of_onlySent hs
  refine ⟨t, ht, fun p hp => ?_⟩
  have hreg : ∀ g ∈ initGroups, t.reg p g.addr = g.value := fun g hg => by
    rw [State.reg, hchain]
    exact regAt_latchAll_initSeq s.chain (hp.trans s.stgN.isLt) hp hg
  have hrow : ∀ pr, t.reg p (rowRegister pr) = 0x00 := fun pr => hreg _ (rowRegister_mem_initGroups pr)
  simp only [initGroups, List.forall_mem_cons] at hreg
  obtain ⟨hC, hF, h9, hB, hA, -⟩ := hreg
  exact ⟨hC, hF, h9, hB, hA, fun pr => ⟨hrow pr, (hrow pr).trans (hfb _).symm⟩⟩

/-- Settles O15: the command is its assignment, and its word has the count in the low byte. -/
theorem cfgCountStages : Obligations.CfgCountStages := fun _ _ => ⟨rfl, rfl⟩

/-- Settles O16: each staging vector is set at `m`, which is within its 256 entries. -/
theorem cfgModuleStages : Obligations.CfgModuleStages := by
  intro m p o s hm
  have hpos := stgOrderAt_cfgModule hm p o s
  have hori := stgOrientAt_cfgModule hm p o s
  refine ⟨⟨{ quietEffect (.cfgModule m p o) s with result := 0x00000000 }, rfl, ?_, ?_, fun k hk => ⟨?_, ?_⟩, rfl⟩, rfl⟩
  · exact (hpos m).trans (if_pos rfl)
  · exact (hori m).trans (if_pos rfl)
  · exact (hpos k).trans (if_neg hk)
  · exact (hori k).trans (if_neg hk)

end Sys2Proof.Machine
end

section
/-! The orientation codes and the layout mapper (42_layout_framebuffer R171 to R173): a code as a rotation with two mirrors,
and the mapper from the valid logical pixels onto the cells of the chain. -/

namespace Sys2Proof.Machine

variable {s : State} {m r c m' r' c' : Nat}

/-! ### One module -/

/-- Only VFLIP acts on the row after the rotation. -/
theorem mapCell_fst (o : BitVec 4) (r c : BitVec 3) :
    (mapCell o r c).1 = if o.getLsbD 3 then 7 - (rotate o r c).1 else (rotate o r c).1 := by
  simp only [mapCell, vflip, hflip]
  split <;> split <;> rfl

/-- Only HFLIP acts on the column after the rotation. -/
theorem mapCell_snd (o : BitVec 4) (r c : BitVec 3) :
    (mapCell o r c).2 = if o.getLsbD 2 then 7 - (rotate o r c).2 else (rotate o r c).2 := by
  simp only [mapCell, vflip, hflip]
  split <;> split <;> rfl

/-- A half turn more takes each coordinate to its mirror. -/
theorem rotate_xor_E (o : BitVec 4) (r c : BitVec 3) :
    rotate (o ^^^ 0xE) r c = (7 - (rotate o r c).1, 7 - (rotate o r c).2) := by
  rcases four_bits o with
    rfl | rfl | rfl | rfl | rfl | rfl | rfl | rfl | rfl | rfl | rfl | rfl | rfl | rfl | rfl | rfl <;> simp [rotate]

/-- A quarter turn makes a logical row one physical column, and a half turn keeps it one physical row. -/
theorem rotate_row (o : BitVec 4) (r c c' : BitVec 3) :
    if o.getLsbD 0 then (rotate o r c).2 = (rotate o r c').2 else (rotate o r c).1 = (rotate o r c').1 := by
  rcases four_bits o with
    rfl | rfl | rfl | rfl | rfl | rfl | rfl | rfl | rfl | rfl | rfl | rfl | rfl | rfl | rfl | rfl <;> simp [rotate]

theorem getLsbD_xor_E (o : BitVec 4) :
    (o ^^^ 0xE).getLsbD 2 = !o.getLsbD 2 ∧ (o ^^^ 0xE).getLsbD 3 = !o.getLsbD 3 := by
  revert o; decide

/-- The half turn and both mirrors together change nothing (42_layout_framebuffer R172). -/
theorem mapCell_xor_E (o : BitVec 4) (r c : BitVec 3) : mapCell (o ^^^ 0xE) r c = mapCell o r c := by
  obtain ⟨h2, h3⟩ := getLsbD_xor_E o
  refine Prod.ext ?_ ?_
  · rw [mapCell_fst, mapCell_fst, rotate_xor_E, h3]
    cases o.getLsbD 3 <;> simp
  · rw [mapCell_snd, mapCell_snd, rotate_xor_E, h2]
    cases o.getLsbD 2 <;> simp

/-- Where two neighbouring cells go tells the code, but for the pairs of R172. -/
theorem eq_or_xor_E_of_mapCell : ∀ o o' : BitVec 4, mapCell o 0 0 = mapCell o' 0 0 → mapCell o 0 1 = mapCell o' 0 1 →
    o' = o ∨ o' = o ^^^ 0xE := by decide

theorem mapCell_row (o : BitVec 4) (r c c' : BitVec 3) :
    if o.getLsbD 0 then (mapCell o r c).2 = (mapCell o r c').2 else (mapCell o r c).1 = (mapCell o r c').1 := by
  have h := rotate_row o r c c'
  simp only [mapCell_fst, mapCell_snd]
  split at h
  case isTrue h0 => rw [if_pos h0, h]
  case isFalse h0 => rw [if_neg h0, h]

/-- A one-to-one map of the 64 cells is onto. -/
theorem mapCell_bijective (o : BitVec 4) : Function.Bijective fun x : BitVec 3 × BitVec 3 => mapCell o x.1 x.2 :=
  Function.Injective.bijective_of_finite fun _ _ h => Prod.ext (mapCell_injective h).1 (mapCell_injective h).2

/-! ### The chain -/

theorem lmap_of_mapCell {pr pc : BitVec 3}
    (h : mapCell (s.orientAt m) (BitVec.ofNat 3 r) (BitVec.ofNat 3 c) = (pr, pc)) :
    lmap s m r c = ⟨s.orderAt m, pr, pc⟩ := by
  simp only [lmap, h]

theorem ofNat_three_injective (hr : r < 8) (hr' : r' < 8) (h : BitVec.ofNat 3 r = BitVec.ofNat 3 r') : r = r' := by
  simpa [Nat.mod_eq_of_lt hr, Nat.mod_eq_of_lt hr'] using congrArg BitVec.toNat h

theorem committedOrder_perm (hi : s.Inv) (hm : s.mode = .configured) : s.committedOrder.Perm (List.range s.count) := by
  obtain ⟨-, -, -, hc⟩ := hi
  exact (hc hm).2.1

/-- No two modules have one position (10_state R34). -/
theorem orderAt_injective (hi : s.Inv) (hm : s.mode = .configured) (h : m < s.count) (h' : m' < s.count)
    (e : s.orderAt m = s.orderAt m') : m = m' :=
  List.inj_on_of_nodup_map ((committedOrder_perm hi hm).nodup_iff.mpr List.nodup_range) (List.mem_range.mpr h)
    (List.mem_range.mpr h') (congrArg BitVec.toNat e)

/-- Every position of the chain is some module's (10_state R34). -/
theorem exists_orderAt (hi : s.Inv) (hm : s.mode = .configured) {p : Byte} (hp : p.toNat < s.count) :
    ∃ m, m < s.count ∧ s.orderAt m = p := by
  have h := (committedOrder_perm hi hm).mem_iff.mpr (List.mem_range.mpr hp)
  obtain ⟨m, h, e⟩ := List.mem_map.mp h
  exact ⟨m, List.mem_range.mp h, BitVec.eq_of_toNat_eq e⟩

/-- No two valid pixels have one cell. -/
theorem lmap_injective (hi : s.Inv) (hm : s.mode = .configured) (h : validPixel s m r c) (h' : validPixel s m' r' c')
    (e : lmap s m r c = lmap s m' r' c') : m = m' ∧ r = r' ∧ c = c' := by
  obtain ⟨hmN, hr, hc⟩ := h
  obtain ⟨hmN', hr', hc'⟩ := h'
  have hp : s.orderAt m = s.orderAt m' := congrArg PhysPixel.p e
  obtain rfl := orderAt_injective hi hm hmN hmN' hp
  obtain ⟨er, ec⟩ := mapCell_injective (Prod.ext (congrArg PhysPixel.pr e) (congrArg PhysPixel.pc e))
  exact ⟨rfl, ofNat_three_injective hr hr' er, ofNat_three_injective hc hc' ec⟩

/-- Every cell of the chain is some valid pixel's. -/
theorem exists_lmap (hi : s.Inv) (hm : s.mode = .configured) {q : PhysPixel} (hq : q.p.toNat < s.count) :
    ∃ m r c, validPixel s m r c ∧ lmap s m r c = q := by
  obtain ⟨m, hmN, hp⟩ := exists_orderAt hi hm hq
  obtain ⟨⟨r, c⟩, hrc⟩ := (mapCell_bijective (s.orientAt m)).surjective (q.pr, q.pc)
  refine ⟨m, r.toNat, c.toNat, ⟨hmN, r.isLt, c.isLt⟩, ?_⟩
  rw [lmap_of_mapCell (pr := q.pr) (pc := q.pc) (by simpa using hrc), hp]

end Sys2Proof.Machine
end

section
/-! The pixel commands (42_layout_framebuffer R174 to R181). -/

namespace Sys2Proof.Machine

variable {s : State} {i : Instr} {m r c m' r' c' : Nat}

/-- A command that begins with the check of R175, of a pixel out of range. -/
theorem exec_invalidPixel {x : Result} (hx : exec i s = checkPix m r c s x) (hm : s.mode = .configured)
    (hv : ¬ validPixel s m r c) : exec i s = .next { s with result := 0x20000000 } :=
  hx.trans (checkPix_invalid hm hv x)

/-- The result of MAP: its three fields, and zeros between them (30_encoding R86). -/
theorem resultWord_mapData (p : Byte) (pr pc : BitVec 3) :
    resultWord .ok (mapData p pr pc) = 0#16 ++ p ++ 0#2 ++ pr ++ pc := by
  have hp := p.isLt
  have hr := pr.isLt
  have hc := pc.isLt
  apply BitVec.eq_of_toNat_eq
  rw [resultWord_toNat]
  simp only [mapData, Status.code, BitVec.ofNat_eq_ofNat, BitVec.toNat_setWidth, append_toNat, BitVec.toNat_ofNat]
  omega

/-- The result of GET_PIXEL (30_encoding R86). -/
theorem resultWord_bitData (b : Bool) : resultWord .ok (bitData b) = if b then 0x00000001 else 0x00000000 := by
  cases b <;> rfl

theorem execMap_valid (hm : s.mode = .configured) (hv : validPixel s m r c) :
    exec (.map m r c) s = .next { s with
      result := resultWord .ok (mapData (lmap s m r c).p (lmap s m r c).pr (lmap s m r c).pc) } :=
  checkPix_valid hm hv _

/-! ### The cell of a pixel -/

/-- The Frame Buffer's bit for a physical cell (10_state R30, 20_memory R57). -/
def State.cellAt (s : State) (q : PhysPixel) : Bool := getCell (Memory.read q.rowAddress s.fb) q.pc

/-- `s` with the bit of a physical cell written (42_layout_framebuffer R176). -/
def State.writeCell (s : State) (q : PhysPixel) (on : Bool) : State :=
  rowWrite q.rowAddress (setCell (Memory.read q.rowAddress s.fb) q.pc on) s

/-- Writing a cell writes its bit and no other of its row byte. -/
theorem writeCell_read_getLsbD (hw : Memory.wf s.fb) (q : PhysPixel) (on : Bool) {j : Nat} (hj : j < 8) :
    (Memory.read q.rowAddress (s.writeCell q on).fb).getLsbD j =
      if j = q.pc.toNat then on else (Memory.read q.rowAddress s.fb).getLsbD j := by
  rw [State.writeCell, rowWrite_fb, Memory.read_write hw, if_pos rfl, setCell_getLsbD _ _ _ hj]

/-- Writing a cell leaves every other row byte. -/
theorem writeCell_read_of_ne (hw : Memory.wf s.fb) {q : PhysPixel} {a : Nat} (ha : a ≠ q.rowAddress) (on : Bool) :
    Memory.read a (s.writeCell q on).fb = Memory.read a s.fb := by
  rw [State.writeCell, rowWrite_fb, Memory.read_write hw, if_neg ha]

/-- Writing a cell writes that cell and no other. -/
theorem writeCell_cellAt (hw : Memory.wf s.fb) (q q' : PhysPixel) (on : Bool) :
    (s.writeCell q on).cellAt q' = if q' = q then on else s.cellAt q' := by
  by_cases ha : q'.rowAddress = q.rowAddress
  · rw [State.cellAt, State.cellAt, getCell, getCell, ha, writeCell_read_getLsbD hw q on q'.pc.isLt]
    refine if_congr ⟨fun hc => physPixel_ext ha (BitVec.eq_of_toNat_eq hc), fun e => ?_⟩ rfl rfl
    rw [e]
  · rw [State.cellAt, writeCell_read_of_ne hw ha, if_neg fun e => ha (congrArg _ e), State.cellAt]

theorem execSetPixel_writeCell (hm : s.mode = .configured) (hv : validPixel s m r c)
    (ho : (s.orderAt m).toNat < s.count) (on : Bool) :
    exec (.setPixel m r c on) s = .next { s.writeCell (lmap s m r c) on with result := 0x00000000 } :=
  execSetPixel_valid hm hv ho

theorem execGetPixel_cellAt (hm : s.mode = .configured) (hv : validPixel s m r c)
    (ho : (s.orderAt m).toNat < s.count) :
    exec (.getPixel m r c) s = .next { s with
      result := if s.cellAt (lmap s m r c) then 0x00000001 else 0x00000000 } := by
  rw [← resultWord_bitData]
  exact execGetPixel_valid hm hv ho

/-- GET_PIXEL after SET_PIXEL (42_layout_framebuffer R180, R181): SET_PIXEL leaves the layout as it is, so GET_PIXEL reads the
written cell if the two pixels have one cell, and otherwise what it held. -/
theorem execGetPixel_after_setPixel (hi : s.Inv) (hm : s.mode = .configured) (hv : validPixel s m r c)
    (hv' : validPixel s m' r' c') (on : Bool) :
    ∃ t u, exec (.setPixel m r c on) s = .next t ∧ exec (.getPixel m' r' c') t = .next u ∧
      u.result = if (if lmap s m' r' c' = lmap s m r c then on else s.cellAt (lmap s m' r' c'))
        then 0x00000001 else 0x00000000 := by
  have ho := orderAt_lt_of_inv hi hm hv.1
  have ho' := orderAt_lt_of_inv hi hm hv'.1
  refine ⟨_, _, execSetPixel_writeCell hm hv ho on, execGetPixel_cellAt hm hv' ho', ?_⟩
  rw [← writeCell_cellAt hi.fb_wf]
  rfl

end Sys2Proof.Machine
end

section
/-! FLUSH (42_layout_framebuffer R179): its frames, how it ends, and what it leaves in the registers of the chain (40_protocol
R104 to R106; log 3). -/

namespace Sys2Proof.Machine

variable {s t : State}

/-- The frames of the first `k` rows (42_layout_framebuffer R179). -/
theorem flushFrames_eq (s : State) {k : Nat} (hk : k ≤ 8) :
    ((List.range k).map (rowSlots s)).map (buildFrame s.count) = (List.range k).map (frameForRow s) := by
  rw [List.map_map]
  exact List.map_congr_left fun pr hpr => buildFrame_rowSlots s (Nat.lt_of_lt_of_le (List.mem_range.mp hpr) hk)

/-- FLUSH with all eight rows answered `Ok`. -/
theorem execFlush_ok (hm : s.mode = .configured) (h : okFor 8 s) :
    ∃ t, exec .flush s = .next t ∧ onlySent s t ∧ t.result = 0x00000008 ∧
      t.busLog = s.busLog ++ okTransactions ((List.range 8).map (frameForRow s)) ∧
      t.chain = latchAll s.count ((List.range 8).map (rowSlots s)) s.draws s.chain := by
  rw [exec, execFlush, configuredOnly_configured hm, ← flushFrames_eq s (Nat.le_refl 8),
    sendTxns_ok s.count ((List.range 8).map (rowSlots s)) s h]
  exact ⟨_, rfl, rfl, rfl, rfl, rfl⟩

/-- FLUSH with row `k` the first answered `Err`. -/
theorem execFlush_err {k : Nat} (hm : s.mode = .configured) (hk : k < 8) (h : failsAt k s) :
    ∃ t, exec .flush s = .next t ∧ onlySent s t ∧ t.result = resultWord .transportError (countData k) ∧
      t.busLog = s.busLog ++ okTransactions ((List.range k).map (frameForRow s)) ++ [⟨frameForRow s k, .err⟩] := by
  obtain ⟨t, ht, hs, hr, hlog⟩ := endSend_sendTxns_err (s := s) (n := s.count) (T := (List.range 8).map (rowSlots s)) 8
    (by simpa using hk) h
  refine ⟨t, (configuredOnly_configured hm _).trans ht, hs, hr, ?_⟩
  rw [hlog, ← List.map_take, List.take_range, Nat.min_eq_left hk.le, flushFrames_eq s hk.le, List.getElem_map,
    List.getElem_range, buildFrame_rowSlots s hk]

theorem latchAll_append_singleton (n : Nat) (T : List SlotMap) (S : SlotMap) (d : Nat) (regs : Vector ModuleRegs 256) :
    latchAll n (T ++ [S]) d regs = latchFrame (d + T.length) (buildFrame n S) (latchAll n T d regs) := by
  induction T generalizing d regs with
  | nil => rfl
  | cons S' T ih => rw [List.cons_append, latchAll, ih, latchAll, List.length_cons, Nat.add_assoc, Nat.add_comm 1]

/-- The registers of a module after the first `k` rows of a FLUSH, all `Ok`: row `pr` is in register `pr + 1`, and the
registers beyond row `k` are as they were (42_layout_framebuffer R179, 40_protocol R105). -/
theorem regAt_latchAll_rowSlots (s : State) {k p : Nat} (hk : k ≤ 8) (hp : p < s.count) (d : Nat)
    (regs : Vector ModuleRegs 256) (b : BitVec 4) :
    regAt (chainAt (latchAll s.count ((List.range k).map (rowSlots s)) d regs) p) b =
      if 1 ≤ b.toNat ∧ b.toNat ≤ k then Memory.read (8 * p + (b.toNat - 1)) s.fb else regAt (chainAt regs p) b := by
  induction k with
  | zero => rw [if_neg (by omega)]; rfl
  | succ k ih =>
    have hb : BitVec.ofNat 4 (k + 1) = b ∧ b ≠ 0x0 ↔ b.toNat = k + 1 := by bv_omega
    rw [List.range_succ, List.map_append, List.map_singleton, latchAll_append_singleton,
      chainAt_latch_buildFrame _ _ _ (Nat.lt_trans hp s.N.isLt) hp, rowSlots_at, if_pos hp, Option.getD_some,
      regAt_writeReg (flushAddress_named k hk), ih (by omega)]
    by_cases e : b.toNat = k + 1
    · rw [if_pos (hb.mpr e), if_pos (by omega), e, Nat.add_sub_cancel]
    · rw [if_neg (mt hb.mp e)]
      exact if_congr (by omega) rfl rfl

theorem rowRegister_toNat : ∀ pr : BitVec 3, (rowRegister pr).toNat = pr.toNat + 1 := by decide

/-- The registers of a module after a FLUSH answered OK. -/
theorem reg_of_flushed (hregs : t.chain = latchAll s.count ((List.range 8).map (rowSlots s)) s.draws s.chain) {p : Nat}
    (hp : p < s.count) :
    (∀ pr, t.reg p (rowRegister pr) = Memory.read (8 * p + pr.toNat) s.fb) ∧
      ∀ b : BitVec 4, 8 < b.toNat → t.reg p b = s.reg p b := by
  have hreg : ∀ b : BitVec 4, t.reg p b =
      if 1 ≤ b.toNat ∧ b.toNat ≤ 8 then Memory.read (8 * p + (b.toNat - 1)) s.fb else s.reg p b := fun b => by
    rw [State.reg, hregs]
    exact regAt_latchAll_rowSlots s (Nat.le_refl 8) hp s.draws s.chain b
  refine ⟨fun pr => ?_, fun b hb => ?_⟩
  · have := pr.isLt
    rw [hreg, rowRegister_toNat, if_pos (by omega), Nat.add_sub_cancel]
  · rw [hreg, if_neg (by omega)]

/-- A module in normal operation shows its row registers (40_protocol R106). -/
theorem ledLit_normal {p : Nat} (h9 : s.reg p 0x9 = 0x00) (hF : s.reg p 0xF = 0x00) (hC : s.reg p 0xC = 0x01)
    (hB : s.reg p 0xB = 0x07) (pr pc : BitVec 3) : ledLit s p pr pc = (s.reg p (rowRegister pr)).getLsbD pc.toNat := by
  have hpr : pr.toNat ≤ 7 := Nat.le_of_lt_succ pr.isLt
  rw [ledLit, if_pos h9, hF, hC, hB]
  simp [hpr]

end Sys2Proof.Machine
end

section
/-! The statements of 42_layout_framebuffer, from the lemmas above. -/

namespace Sys2Proof.Machine

/-- Settles O36: a code is one to one and so onto; two cells tell the code; and the mirrors keep what a rotation makes of a
row. -/
theorem orientationProperties : Obligations.OrientationProperties := by
  refine ⟨mapCell_bijective, fun o o' => ⟨fun h => eq_or_xor_E_of_mapCell o o' (h 0 0) (h 0 1), ?_⟩, mapCell_row⟩
  rintro (rfl | rfl) r c
  · rfl
  · exact (mapCell_xor_E o r c).symm

/-- Settles O37: the committed permutation takes the modules to the positions, and each module's code its cells. -/
theorem layoutMapIsBijection : Obligations.LayoutMapIsBijection := fun _ hi hm =>
  ⟨fun _ _ _ => rfl, fun _ _ _ hv => orderAt_lt_of_inv hi hm hv.1, fun _ _ _ _ _ _ => lmap_injective hi hm,
    fun _ => exists_lmap hi hm⟩

/-- Settles O40: past the check, SET_PIXEL writes the cell that LMap gives. -/
theorem setPixelWritesOneCell : Obligations.SetPixelWritesOneCell := by
  intro m r c on s
  refine ⟨exec_unconfigured rfl, exec_invalidPixel rfl, fun pr pc hm hv ho hw hq => ?_, rfl⟩
  have hl := lmap_of_mapCell hq
  refine ⟨_, execSetPixel_writeCell hm hv ho on, fun j hj => ?_, fun a ha => ?_, rfl⟩
  · rw [hl]
    exact writeCell_read_getLsbD hw ⟨s.orderAt m, pr, pc⟩ on hj
  · rw [hl]
    exact writeCell_read_of_ne hw (q := ⟨s.orderAt m, pr, pc⟩) ha on

/-- Settles O41: past the check, GET_PIXEL reads the cell that LMap gives. -/
theorem getPixelReadsOneCell : Obligations.GetPixelReadsOneCell := by
  intro m r c s
  refine ⟨exec_unconfigured rfl, exec_invalidPixel rfl, fun pr pc hm hv ho hq => ?_, rfl⟩
  rw [execGetPixel_cellAt hm hv ho, lmap_of_mapCell hq]
  rfl

/-- Settles O43: the check of MODE, then the cleared memory. -/
theorem clearDarkensFrameBuffer : Obligations.ClearDarkensFrameBuffer := fun _ =>
  ⟨exec_unconfigured rfl, fun hm hw => ⟨_, configuredOnly_configured hm _, fun _ => Memory.read_clear hw, rfl⟩, rfl⟩

/-- Settles O44, by FLUSH when all is `Ok` and when row `k` is the first `Err`. -/
theorem flushSendsEveryRow : Obligations.FlushSendsEveryRow := by
  intro s
  refine ⟨exec_unconfigured rfl, fun hm h => ?_, fun k hm hk h => ?_, rfl⟩
  · obtain ⟨t, ht, hs, hr, hlog, -⟩ := execFlush_ok hm h
    exact ⟨t, ht, hs, hr, hlog⟩
  · rw [← resultWord_err_count (by omega)]
    exact execFlush_err hm hk h

/-- Settles O45: a FLUSH that is not `Ok` throughout answers TRANSPORT_ERROR, and one that is has sent eight frames. -/
theorem flushCounts : Obligations.FlushCounts := by
  intro s t hm ht h0
  rcases okFor_or_failsAt 8 s with h | ⟨k, hk, h⟩
  · obtain ⟨t', ht', -, -, hlog, -⟩ := execFlush_ok hm h
    obtain rfl := Host.Outcome.next.inj (ht.symm.trans ht')
    refine ⟨_, hlog, rfl, fun x hx => ?_⟩
    rw [← flushFrames_eq s (Nat.le_refl 8)] at hx
    obtain ⟨f, hf, rfl⟩ := List.mem_map.mp hx
    obtain ⟨S, -, rfl⟩ := List.mem_map.mp hf
    exact ⟨buildFrame_length _ S, rfl⟩
  · obtain ⟨t', ht', -, hr, -⟩ := execFlush_err hm hk h
    obtain rfl := Host.Outcome.next.inj (ht.symm.trans ht')
    rw [hr, statusField_resultWord] at h0
    exact absurd h0 (by decide)

/-- Settles O47: FLUSH writes the row registers and no control register. -/
theorem flushShowsFrameBuffer : Obligations.FlushShowsFrameBuffer := by
  intro s hm h
  obtain ⟨t, ht, hs, -, -, hregs⟩ := execFlush_ok hm h
  refine ⟨t, ht, fun p hp pr => ?_⟩
  obtain ⟨hrow, hctl⟩ := reg_of_flushed hregs hp
  have hfb : t.fb = s.fb := by rw [hs]
  rw [hfb]
  refine ⟨hrow pr, fun h9 hF hC hB pc => ?_⟩
  rw [← hctl _ (by decide)] at h9 hF hC hB
  rw [ledLit_normal h9 hF hC hB, hrow]

/-- Settles O49: the cell that GET_PIXEL reads is the one SET_PIXEL wrote. -/
theorem pixelRoundTrip : Obligations.PixelRoundTrip := by
  intro m r c on s hi hm hv
  obtain ⟨t, u, ht, hu, hr⟩ := execGetPixel_after_setPixel hi hm hv hv on
  exact ⟨t, u, ht, hu, by rw [hr, if_pos rfl]⟩

/-- Settles O50: the two pixels have two cells, so GET_PIXEL reads what it would have read before. -/
theorem pixelsAreIndependent : Obligations.PixelsAreIndependent := by
  intro m r c m' r' c' on s hi hm hv hv' hne
  obtain ⟨t, u, ht, hu, hr⟩ := execGetPixel_after_setPixel hi hm hv hv' on
  have hcell : lmap s m' r' c' ≠ lmap s m r c := fun e => by
    obtain ⟨rfl, rfl, rfl⟩ := lmap_injective hi hm hv' hv e
    exact hne rfl
  exact ⟨t, u, _, ht, hu, execGetPixel_cellAt hm hv' (orderAt_lt_of_inv hi hm hv'.1), by rw [hr, if_neg hcell]⟩

/-- Settles O35, code by code: the rotation, then the mirrors, each of which undoes itself. -/
theorem orientationTable : Obligations.OrientationTable := by
  intro r c
  simp [mapCell, vflip, hflip, rotate]

/-- Settles O38: the three commands begin with one check. -/
theorem pixelCommandsCheckModeAndRange : Obligations.PixelCommandsCheckModeAndRange := by
  intro m r c on s i hi
  have hx : i.needsConfig = true ∧ ∃ x, exec i s = checkPix m r c s x := by
    simp only [List.mem_cons, List.not_mem_nil, or_false] at hi
    rcases hi with rfl | rfl | rfl <;> exact ⟨rfl, _, rfl⟩
  obtain ⟨hn, x, hx⟩ := hx
  exact ⟨exec_unconfigured hn, fun hm h => exec_invalidPixel hx hm (by omega)⟩

/-- Settles O39: past the check, MAP answers the cell that LMap gives. -/
theorem mapReturnsPhysicalCell : Obligations.MapReturnsPhysicalCell := by
  intro m r c s
  refine ⟨exec_unconfigured rfl, exec_invalidPixel rfl, fun hm hv => ?_, rfl⟩
  rw [execMap_valid hm hv, resultWord_mapData]
  rfl

end Sys2Proof.Machine
end

section
/-! When an instruction answers a next state, and when a pixel command stops (60_exceptions R220, R221; log 12). -/

namespace Sys2Proof.Machine

variable {s : State} {i : Instr}

/-! ### Checks and sending answer a next state -/

theorem ite_next {p : Prop} [Decidable p] {x y : Result} (hx : ∃ t, x = .next t) (hy : ∃ t, y = .next t) :
    ∃ t, (if p then x else y) = .next t := by
  split
  · exact hx
  · exact hy

theorem configuredOnly_next {x : Result} (hx : ∃ t, x = .next t) : ∃ t, configuredOnly s x = .next t := by
  rcases configuredOnly_cases s x with ⟨-, e⟩ | ⟨-, e⟩ <;> rw [e]
  · exact ⟨_, rfl⟩
  · exact hx

theorem exists_endSend_next (data : BitVec 28) (r : Sent) : ∃ t, endSend data r = .next t := by
  obtain ⟨_, h⟩ := endSend_next data r
  exact ⟨_, h⟩

theorem exists_sendSingle_next (f : List Byte) (s : State) : ∃ t, sendSingle f s = .next t := by
  obtain ⟨t, h, -⟩ := sendSingle_next f s
  exact ⟨t, h⟩

/-! ### The pixel commands -/

/-- A pixel command for `(m, r, c)` passes its checks, and the row it accesses does not exist (20_memory R51; log 12). -/
structure RowMissing (s : State) (m r c : Nat) : Prop where
  mode : s.mode = .configured
  valid : validPixel s m r c
  beyond : 8 * s.count ≤ (lmap s m r c).rowAddress

/-- A committed permutation puts every valid pixel into a row that exists. -/
theorem not_rowMissing (hi : s.Inv) (m r c : Nat) : ¬ RowMissing s m r c := by
  rintro ⟨hm, ⟨hmN, -⟩, hb⟩
  exact absurd (rowAddress_lt r c (orderAt_lt_of_inv hi hm hmN)) (Nat.not_lt.mpr hb)

/-- A pixel command that answers once it has its row byte stops only where the row is missing. -/
theorem checkPix_next_or_fault {m r c : Nat} {x : Result}
    (hsome : ∀ b, rowRead (lmap s m r c).rowAddress s = some b → ∃ t, x = .next t)
    (hnone : rowRead (lmap s m r c).rowAddress s = none → x = .fault (.rowAddress (lmap s m r c).rowAddress)) :
    (∃ t, checkPix m r c s x = .next t) ∨
      (RowMissing s m r c ∧ checkPix m r c s x = .fault (.rowAddress (lmap s m r c).rowAddress)) := by
  rcases checkPix_cases m r c s x with ⟨-, e⟩ | ⟨-, -, e⟩ | ⟨hm, hv, e⟩ <;> rw [e]
  · exact .inl ⟨_, rfl⟩
  · exact .inl ⟨_, rfl⟩
  · rcases rowRead_cases (lmap s m r c).rowAddress s with ⟨-, h⟩ | ⟨hb, h⟩
    · exact .inl (hsome _ h)
    · exact .inr ⟨⟨hm, hv, hb⟩, hnone h⟩

/-! ### Every instruction -/

/-- Every instruction answers a next state, but for a pixel command whose row is missing. -/
theorem exec_next_or_fault (i : Instr) (s : State) :
    (∃ t, exec i s = .next t) ∨
      ∃ m r c, RowMissing s m r c ∧ exec i s = .fault (.rowAddress (lmap s m r c).rowAddress) ∧
        ((∃ on, i = .setPixel m r c on) ∨ i = .getPixel m r c) := by
  cases i
  case setPixel m r c on =>
    refine (checkPix_next_or_fault (fun b h => ?_) fun h => ?_).imp_right
      fun ⟨hr, e⟩ => ⟨m, r, c, hr, e, .inl ⟨on, rfl⟩⟩
    · simp only [h]
      exact ⟨_, rfl⟩
    · simp only [h]
  case getPixel m r c =>
    refine (checkPix_next_or_fault (fun b h => ?_) fun h => ?_).imp_right
      fun ⟨hr, e⟩ => ⟨m, r, c, hr, e, .inr rfl⟩
    · simp only [h]
      exact ⟨_, rfl⟩
    · simp only [h]
  case init => exact .inl (ite_next (exists_endSend_next _ _) ⟨_, rfl⟩)
  case batchPut => exact .inl (configuredOnly_next (ite_next ⟨_, rfl⟩ (ite_next ⟨_, rfl⟩ ⟨_, rfl⟩)))
  case batchSend | flush => exact .inl (configuredOnly_next (exists_endSend_next _ _))
  case sendOne | setIntensity => exact .inl (configuredOnly_next (ite_next ⟨_, rfl⟩ (exists_sendSingle_next _ s)))
  case setTestMode => exact .inl (configuredOnly_next (exists_sendSingle_next _ s))
  case clear => exact .inl (configuredOnly_next ⟨_, rfl⟩)
  case map => exact .inl (configuredOnly_next (ite_next ⟨_, rfl⟩ ⟨_, rfl⟩))
  all_goals exact .inl ⟨_, rfl⟩

theorem exec_next_of_inv (hi : s.Inv) (i : Instr) : ∃ t, exec i s = .next t := by
  rcases exec_next_or_fault i s with h | ⟨m, r, c, hr, -⟩
  · exact h
  · exact absurd hr (not_rowMissing hi m r c)

end Sys2Proof.Machine
end

section
/-! What stands after a command that answers an error (60_exceptions R223). -/

namespace Sys2Proof.Machine

variable {s t : State} {i : Instr}

/-- A status other than OK and TRANSPORT_ERROR comes from a check that failed. -/
theorem exec_checkFailed (hc : i.isCommand = true) (h : exec i s = .next t) (h0 : statusField t.result ≠ 0)
    (h3 : statusField t.result ≠ 3) : onlyResult s t := by
  cases exec_command_ends hc h
  case failed st hst h => exact h ▸ rfl
  case quiet hi hp _ h | sent hi hp _ h => exact absurd (by rw [h, statusField_resultWord]; rfl) h0
  case stopped hi hp k hk ha h => exact absurd (by rw [h, statusField_resultWord]; rfl) h3

/-- A command that answers TRANSPORT_ERROR stopped at some transaction `k`: what it had changed in the block stands, and the
chain is what the draw of that transaction leaves (40_protocol R104, R107; log 5). -/
theorem exec_transportError (hc : i.isCommand = true) (h : exec i s = .next t) (h3 : statusField t.result = 3) :
    onlySent (sendBase i s) t ∧ ∃ k, ∃ hk : k < (sendMaps i s).length,
      t.busLog = s.busLog ++ okTransactions (((sendMaps i s).take k).map (buildFrame (sendBase i s).count)) ++
        [⟨buildFrame (sendBase i s).count (sendMaps i s)[k], .err⟩] ∧
      t.draws = s.draws + k + 1 ∧ t.chain = unknownChain (s.draws + k) := by
  cases exec_command_ends hc h
  case failed st hst h =>
    rw [h, statusField_resultWord] at h3
    rcases hst with rfl | rfl | ⟨rfl, -⟩ <;> simp [Status.code] at h3
  case quiet hi hp _ h | sent hi hp _ h =>
    rw [h, statusField_resultWord] at h3
    simp [Status.code] at h3
  case stopped hi hp k hk ha h =>
    obtain ⟨hlog, -, -, hdraws⟩ := sendBase_sameOutside i s
    have hs := sendLoop_onlySent i s
    refine ⟨by rw [h, hs], k, hk, ?_⟩
    rw [h, sendLoop, sendTxns_err _ _ _ k hk ha, hlog, hdraws]
    exact ⟨rfl, rfl, rfl⟩

/-- Only INIT and BATCH_SEND change the block before they send. -/
theorem sendBase_eq_self (hi : i ≠ .init) (hb : i ≠ .batchSend) : sendBase i s = s := by
  cases i
  case init => exact absurd rfl hi
  case batchSend => exact absurd rfl hb
  all_goals rfl

theorem reg_of_unknownChain {d p : Nat} (h : t.chain = unknownChain d) (hp : p < 256) (b : BitVec 4) :
    t.reg p b = Config.chainUnknown d p b.toNat := by
  rw [State.reg, h, chainAt_unknownChain d hp, regAt_unknownRegs]

end Sys2Proof.Machine
end

section
/-! The statements of 60_exceptions, from the lemmas above. -/

namespace Sys2Proof.Machine

/-- Settles O5: only the pixel commands can stop, and only where the row is missing. -/
theorem onlyPixelCommandsCanFault : Obligations.OnlyPixelCommandsCanFault := by
  intro i s
  refine (exec_next_or_fault i s).imp_right ?_
  rintro ⟨m, r, c, hr, e, hi⟩
  exact ⟨_, m, r, c, e, hr.beyond, hi⟩

/-- Settles O4, by the next input: an instruction answers from a state that meets the invariant, which speaks of no input
and of no counter; every other input answers from any state. -/
theorem invariantStepsNeverStop : Obligations.InvariantStepsNeverStop := by
  intro s hi
  rcases hp : s.pending with _ | ⟨_ | ⟨p, w⟩ | _, rest⟩
  case nil => exact ⟨_, step_waits hp⟩
  case cons.command w =>
    cases hd : decodeCommand w
    case ok i =>
      obtain ⟨t, h⟩ := exec_next_of_inv (s := { s with pending := rest, hpc := s.hpc + 1 }) hi i
      exact ⟨t, (step_command_ok hp hd).trans h⟩
    case error e => exact ⟨_, step_command_error hp hd⟩
  case cons.group =>
    obtain ⟨t, h⟩ := exec_next_of_inv (s := { s with pending := rest, groupPos := p }) hi (decodeGroup w)
    exact ⟨t, (step_group hp).trans h⟩
  case cons.reset => exact ⟨_, step_reset hp⟩

/-- Settles O55: a status other than OK and TRANSPORT_ERROR is a failed check; TRANSPORT_ERROR is a transmit loop that
stopped, after the commits of INIT or the emptying of the batch. -/
theorem whatStandsAfterAnError : Obligations.WhatStandsAfterAnError := by
  intro i s t hc h
  refine ⟨exec_checkFailed hc h, fun h3 => ?_⟩
  obtain ⟨hs, k, hk, hlog, hdraws, hchain⟩ := exec_transportError hc h h3
  have hlen : (((sendMaps i s).take k).map (buildFrame (sendBase i s).count)).length = k := by
    rw [List.length_map, List.length_take, Nat.min_eq_left hk.le]
  refine ⟨⟨_, _, hlog, ?_, fun p b hp => ?_⟩, ?_⟩
  · rw [hdraws, hlen]
  · rw [hlen]
    exact reg_of_unknownChain hchain hp b
  · split
    case isTrue hi =>
      subst hi
      obtain ⟨hm, hN, horder, hfb, hbatch, -⟩ := initCommitted_of_onlySent hs
      exact ⟨hN, hm, hbatch, hfb, horder⟩
    case isFalse hi =>
      split
      case isTrue hb =>
        subst hb
        exact hs
      case isFalse hb => rwa [sendBase_eq_self hi hb] at hs

end Sys2Proof.Machine
end

section
/-! The chain in the middle of a command: what the first transactions of INIT and of FLUSH leave in the registers
(70_reset_and_hazards R263, R266; log 3); the display in test mode (R267, 40_protocol R106); reset values (R250). -/

namespace Sys2Proof.Machine

variable {s : State} {n p q : Nat}

/-- The registers after a list of transactions that were all `Ok`. -/
theorem reg_sendTxns_ok {T : List SlotMap} (h : okFor T.length s) (p : Nat) (b : BitVec 4) :
    (sendTxns n T s).state.reg p b = regAt (chainAt (latchAll n T s.draws s.chain) p) b := by
  rw [sendTxns_ok n T s h]
  rfl

/-- A module for which no slot map has a group keeps its registers (40_protocol R108). -/
theorem chainAt_latchAll_of_at_none {T : List SlotMap} (hT : ∀ S ∈ T, S.at q = none) (hq256 : q < 256) (hq : q < n)
    (d : Nat) (regs : Vector ModuleRegs 256) : chainAt (latchAll n T d regs) q = chainAt regs q := by
  induction T generalizing d regs with
  | nil => rfl
  | cons S T ih =>
    obtain ⟨hS, hT⟩ := List.forall_mem_cons.mp hT
    rw [latchAll, ih hT, chainAt_latch_buildFrame d S regs hq256 hq, hS]
    exact writeReg_noop _ _ _ _

/-! ### In the middle of INIT -/

/-- The first `13·p + 1` slot maps: those of the positions before `p`, then the first of `p` (41_config_init R147). -/
theorem take_initSeq (hp : p < n) : (initSeq n).take (13 * p + 1) = initSeq p ++ [oneSlot p ⟨0xC, 0x01⟩] := by
  obtain ⟨k, rfl⟩ := Nat.exists_eq_add_of_lt hp
  rw [Nat.add_assoc, initSeq, List.range_add, List.range_succ_eq_map, List.flatMap_append, ← initSeq,
    ← initSeq_length p, List.take_length_add_append]
  rfl

/-- The positions before `p` have no group for a module at or beyond `p`. -/
theorem at_eq_none_of_mem_initSeq {S : SlotMap} (hS : S ∈ initSeq p) (hq : p ≤ q) : S.at q = none := by
  rw [initSeq_eq] at hS
  obtain ⟨x, hx, rfl⟩ := List.mem_map.mp hS
  have hlt : x.1 < p := List.mem_range.mp (List.mem_product.mp hx).1
  rw [oneSlot_at, if_neg (by omega)]

/-- After the first `13·p + 1` transactions of INIT, the shutdown register of `p` is the one register written at or beyond
position `p`. -/
theorem regAt_latchAll_take_initSeq (hp : p < n) (hpq : p ≤ q) (hq256 : q < 256) (hq : q < n) (d : Nat)
    (regs : Vector ModuleRegs 256) (b : BitVec 4) :
    regAt (chainAt (latchAll n ((initSeq n).take (13 * p + 1)) d regs) q) b =
      if q = p ∧ b = 0xC then 0x01 else regAt (chainAt regs q) b := by
  rw [take_initSeq hp, latchAll_append_singleton, chainAt_latch_buildFrame _ _ _ hq256 hq,
    chainAt_latchAll_of_at_none (fun _ hS => at_eq_none_of_mem_initSeq hS hpq) hq256 hq, oneSlot_at, ite_and]
  split
  case isTrue => rw [Option.getD_some, writeReg_named (by decide) rfl, regAt_setReg]
  case isFalse => exact congrArg (regAt · b) (writeReg_noop _ _ _ _)

/-! ### Test mode -/

/-- A module in no-decode mode and in test mode shows every LED lit (40_protocol R106). -/
theorem ledLit_testMode (h9 : s.reg p 0x9 = 0x00) (hF : s.reg p 0xF = 0x01) (pr pc : BitVec 3) :
    ledLit s p pr pc = true := by
  rw [ledLit, if_pos h9, hF]
  rfl

theorem rowRegister_ne_displayTest : ∀ pr : BitVec 3, rowRegister pr ≠ 0xF := by decide

/-! ### Reset values -/

/-- An entry of an array given by a rule, read as the entries of the configuration are. -/
theorem getD_tabulate {α : Type} (f : Nat → α) (x : α) {m : Nat} (hm : m < n) : ((tabulate n f)[m]?).getD x = f m := by
  rw [tabulate_getElem? n f m hm, Option.getD_some]

end Sys2Proof.Machine
end

section
/-! The statements of 70_reset_and_hazards, from the lemmas above. -/

namespace Sys2Proof.Machine

/-- Settles O20: of the registers at or beyond position `p` only the shutdown register of `p` has been written. -/
theorem initReachesModulesInOrder : Obligations.InitReachesModulesInOrder := by
  rintro s p hp h t rfl
  have hlen : ((initSeq s.stgN.toNat).take (13 * p + 1)).length = 13 * p + 1 := by
    rw [List.length_take, initSeq_length]
    omega
  have hreg : ∀ q b, p ≤ q → q < s.stgN.toNat →
      (sendTxns s.stgN.toNat ((initSeq s.stgN.toNat).take (13 * p + 1)) (commitConfig s)).state.reg q b =
        if q = p ∧ b = 0xC then 0x01 else s.reg q b := fun q b hpq hq => by
    rw [reg_sendTxns_ok (s := commitConfig s) (by rwa [hlen])]
    exact regAt_latchAll_take_initSeq hp hpq (hq.trans s.stgN.isLt) hq _ _ b
  refine ⟨?_, fun b hb => ?_, fun q b hpq hq => ?_⟩
  · rw [hreg p _ (Nat.le_refl p) hp, if_pos ⟨rfl, rfl⟩]
  · rw [hreg p b (Nat.le_refl p) hp, if_neg fun e => hb e.2]
  · rw [hreg q b hpq.le hq, if_neg fun e => hpq.ne' e.1]

/-- Settles O46: row `pr` goes to register `pr + 1`, which is among those written when `pr` is below `k`. -/
theorem flushUpdatesOneRowAtATime : Obligations.FlushUpdatesOneRowAtATime := by
  rintro s k hk h t rfl p hp pr
  rw [reg_sendTxns_ok (by simpa using h), regAt_latchAll_rowSlots s hk hp, rowRegister_toNat, Nat.add_sub_cancel]
  exact if_congr (by omega) rfl rfl

/-- Settles O48: the one register written is display test, which is no row register, and it overrides the rows. -/
theorem testModeLightsEveryLed : Obligations.TestModeLightsEveryLed := by
  intro s hm ha
  obtain ⟨-, htest, -⟩ := chainWideCommandsLatchRegisters s hm
  obtain ⟨t, ht, hreg⟩ := htest true ha
  obtain ⟨-, heffect, -⟩ := setTestModeEffect true s
  obtain ⟨t', ht', hs, -⟩ := heffect hm
  obtain rfl := Host.Outcome.next.inj (ht.symm.trans ht')
  refine ⟨t, ht, by rw [hs], fun p hp => ⟨fun pr => ?_, fun h9 => ledLit_testMode ?_ ?_⟩⟩
  · rw [hreg p _ hp, if_neg (rowRegister_ne_displayTest pr)]
  · rw [hreg p _ hp, if_neg (by decide), h9]
  · rw [hreg p _ hp, if_pos rfl, if_pos rfl]

/-- Settles O1: the staged order is the identity, and every other element of the block is zero or empty. -/
theorem resetValues : Obligations.ResetValues :=
  ⟨rfl, rfl, rfl, fun _ hm => ⟨getD_tabulate _ _ hm, getD_tabulate _ _ hm⟩, rfl,
    fun _ hm => ⟨getD_tabulate _ _ hm, getD_tabulate _ _ hm⟩, fun _ => rfl, rfl⟩

/-- Settles O12: an empty list of inputs is the first case of a step. -/
theorem stepWaitsWithoutInput : Obligations.StepWaitsWithoutInput := fun _ => step_waits

/-- Settles O13: the step is `resetBlock`, which writes the ten fields of the block and no other. -/
theorem resetInputKeepsChain : Obligations.ResetInputKeepsChain := fun _ _ => step_reset

end Sys2Proof.Machine
end
